-- ==== Sys2Proof/Word.lean ====
section
/-! DEFINITION. The machine's word types: a 64-bit element (R7 ELEM_W), a 32-bit register or command word
(R42, R60), a 16-bit argument or count (R7 ARG_W, R20) and a byte of the bus (R47). -/

namespace Sys2Proof

/-- One element, weight, sample or result: 64 bits (R7, ELEM_W = 64). -/
abbrev Word64 := BitVec 64

/-- One bus register or command word: 32 bits (R42, R60). -/
abbrev Word32 := BitVec 32

/-- A command argument, a capacity, an index or a count: 16 bits (R7, ARG_W = 16; R20). -/
abbrev Word16 := BitVec 16

/-- One byte lane of the bus (R47). -/
abbrev Byte := BitVec 8

end Sys2Proof
end

