-- ==== Sys2Proof/Machine/Binary64.lean ====
section
/-! DEFINITION. The MAC arithmetic (41_fir_filter R112 to R117): IEEE 754 binary64 multiply and add under
roundTiesToEven, with one canonical NaN. A finite value is an exact whole number of units of 2^-1074, so the exact
product and sum are whole numbers too (of 2^-2148 and 2^-1074), and one function rounds them. The IEEE layout and
case rules are the spec's, marked there as general knowledge (93 K1-K5): PRESUMED,
unsafe if the core departs from IEEE 754 (log 15). -/

namespace Sys2Proof.Machine

/-- The 11-bit exponent field, bits 62:52. -/
def expField (x : Word64) : Nat := x.toNat / 2 ^ 52 % 2 ^ 11

/-- The 52-bit fraction field, bits 51:0. -/
def fracField (x : Word64) : Nat := x.toNat % 2 ^ 52

/-- The sign, bit 63. -/
def isNeg (x : Word64) : Bool := x.msb

def isNaN (x : Word64) : Bool := decide (expField x = 2047 ∧ fracField x ≠ 0)

def isInf (x : Word64) : Bool := decide (expField x = 2047 ∧ fracField x = 0)

def isZero (x : Word64) : Bool := decide (expField x = 0 ∧ fracField x = 0)

/-- Neither an infinity nor a NaN. -/
def isFinite (x : Word64) : Bool := decide (expField x ≠ 2047)

/-- |x| of a finite x, in units of 2^-1074; subnormals keep their exact value (R114). -/
def units (x : Word64) : Nat :=
  if expField x = 0 then fracField x else (2 ^ 52 + fracField x) * 2 ^ (expField x - 1)

/-- The value of a finite x, in units of 2^-1074. -/
def signedUnits (x : Word64) : Int := if isNeg x then -(units x : Int) else (units x : Int)

/-- The canonical quiet NaN (R115). -/
def canonicalNaN : Word64 := 0x7FF8000000000000#64

/-- The exponent and fraction fields of infinity, as one 63-bit number. -/
def infMagnitude : Nat := 2047 * 2 ^ 52

/-- A value from its sign and its 63-bit exponent-and-fraction number. -/
def withSign (neg : Bool) (magnitude : Nat) : Word64 :=
  BitVec.ofNat 64 ((if neg then 2 ^ 63 else 0) + magnitude)

/-- n / 2^d rounded to the nearest whole number, a tie to the even one (R114, roundTiesToEven). -/
def roundShift (n d : Nat) : Nat :=
  let q := n / 2 ^ d
  let r := n % 2 ^ d
  if 2 * r < 2 ^ d then q else if 2 ^ d < 2 * r then q + 1 else q + q % 2

/-- The number of binary digits of n. -/
def bitLength (n : Nat) : Nat := if n = 0 then 0 else Nat.log2 n + 1

/-- The exponent and fraction fields of n units of 2^-(1074+k), rounded once (R114): d low digits are dropped, which
leaves at most 53 and never a unit below 2^-1074 (gradual underflow); a result past the largest finite value is
infinity. -/
def roundUnits (n k : Nat) : Nat :=
  let d := max k (bitLength n - 53)
  min ((d - k) * 2 ^ 52 + roundShift n d) infMagnitude

/-- fmul64 (R112): NaN rule first (R115), infinity times zero is invalid, the sign is the XOR of the signs. -/
def fmul64 (a b : Word64) : Word64 :=
  let neg := isNeg a ^^ isNeg b
  if isNaN a || isNaN b then canonicalNaN
  else if isInf a || isInf b then
    if isZero a || isZero b then canonicalNaN else withSign neg infMagnitude
  else withSign neg (roundUnits (units a * units b) 1074)

/-- fadd64 (R113): NaN rule first (R115), infinities of opposite sign are invalid; an exact zero sum is -0.0 only for
(-0.0) + (-0.0). -/
def fadd64 (a b : Word64) : Word64 :=
  if isNaN a || isNaN b then canonicalNaN
  else if isInf a then
    if isInf b && isNeg a != isNeg b then canonicalNaN else a
  else if isInf b then b
  else
    let sum := signedUnits a + signedUnits b
    if sum = 0 then withSign (isNeg a && isNeg b) 0
    else withSign (decide (sum < 0)) (roundUnits sum.natAbs 0)

end Sys2Proof.Machine
end

