-- ==== Sys2Proof/Config.lean ====
section
/-! DEFINITION. What one RingFIR instance fixes for good (00_scope R7): the parameters marked OPEN that a rule
depends on. LATENCY is left out with time itself (DEDUCED, safe;
log 13). -/

namespace Sys2Proof

/-- The parameters of one core. They are configuration, not architectural state (R20): State carries them as
data so that a claim about every state is a claim about every N_MAX and BASE, and no step changes them. -/
structure Config where
  /-- N_MAX: the largest capacity, and the size of each element array (R7, R34). -/
  nMax : Word16
  /-- BASE: the host byte address of the register window (R7, R40). -/
  base : Nat
  deriving DecidableEq, Repr

/-- The reference configuration: N_MAX = 1024 (92 D29). BASE = 0 is a DESIGN CHOICE (unsafe; log 2): the spec
leaves it to the platform. -/
def Config.reference : Config := { nMax := 1024#16, base := 0 }

end Sys2Proof
end

