-- ==== Sys2Proof/Syntax.lean ====
section
/-! DEFINITION. The command set: one constructor per row of spec/opcode_table.json, with the operand that stands
in the command word (R62, R63). The 64-bit operand is not in the word: it is DIN (R60). -/

namespace Sys2Proof

/-- The ten commands of the core (30_encoding R63). -/
inductive Instr where
  /-- RBINIT #capacity (R82). -/
  | rbinit (capacity : Word16)
  /-- RBLEN (R84). -/
  | rblen
  /-- RBGET #logical_index (R86). -/
  | rbget (logicalIndex : Word16)
  /-- RBPUSH (R88). -/
  | rbpush
  /-- RBPEEK #physical_index (R90). -/
  | rbpeek (physicalIndex : Word16)
  /-- WCLR (R102). -/
  | wclr
  /-- WLOAD (R104). -/
  | wload
  /-- FIRINIT #size (R106). -/
  | firinit (size : Word16)
  /-- FIRSIZE (R108). -/
  | firsize
  /-- FILTER (R110). -/
  | filter
  deriving DecidableEq, Repr

end Sys2Proof
end

