-- ==== Sys2Proof/WellFormed.lean ====
section
/-! DEFINITION. What is well formed before anything runs: a configuration (R7, R40) and a line of assembler text
(R67). A term of Instr needs no check: its argument is 16 bits wide by its type (R62), and the words that encode
no command are rejected by the decoder (R65). -/

namespace Sys2Proof

/-- A configuration the spec admits: 1 <= N_MAX <= 65535 (R7; the upper bound is the type's) and a 64-byte aligned
BASE (R40). -/
def Config.wf (c : Config) : Bool := decide (c.nMax ≠ 0#16) && decide (c.base % 64 = 0)

/-- The ten mnemonics of R63, as an assembler line names them (R67). -/
inductive Mnemonic where
  | rbinit | rblen | rbget | rbpush | rbpeek | wclr | wload | firinit | firsize | filter
  deriving DecidableEq, Repr

/-- The commands whose ARG is an operand (R62): a capacity, an index or a size. -/
def Mnemonic.takesArg : Mnemonic → Bool
  | .rbinit | .rbget | .rbpeek | .firinit => true
  | .rblen | .rbpush | .wclr | .wload | .firsize | .filter => false

/-- One line of the assembler of R67: a mnemonic, followed by `#n` for commands that take ARG. -/
structure AsmLine where
  mnemonic : Mnemonic
  operand : Option Nat
  deriving DecidableEq, Repr

/-- What the assembler of R67 accepts: an operand exactly on the commands that take ARG, and n <= 65535. That
a missing operand is rejected is DEDUCED (safe; log 14). -/
def AsmLine.wf (l : AsmLine) : Bool :=
  match l.operand with
  | some n => l.mnemonic.takesArg && decide (n ≤ 65535)
  | none => !l.mnemonic.takesArg

end Sys2Proof
end

