-- ==== Sys2Proof/Machine/State.lean ====
section
/-! DEFINITION. The state of one RingFIR core (10_state R20), the interface signal and host interactions the core
sees (70_reset R150, R161, R162), the reset state (R39, R151), and the reasons a step can stop. -/

namespace Sys2Proof.Machine

/-- Which object the core holds (R22). The encoding value 3 is never produced and has no constructor
(DEDUCED, safe; log 16). -/
inductive Mode where
  | unconfigured | ring | fir
  deriving DecidableEq, Repr

/-- The status codes a command can complete with (R132). Codes 10 to 15 are never produced and have no constructor
(DEDUCED, safe; log 16). -/
inductive Code where
  | ok | invalidCapacity | invalidSize | weightLengthMismatch | capacityTooLarge
  | notConfigured | modeError | indexOutOfRange | stagingFull | illegalCommand
  deriving DecidableEq, Repr

/-- An element array (R26, R27, R28) in canonical form: (index, element) pairs, indices strictly rising, no element
0 listed; an index that is not listed holds 0 (DESIGN CHOICE; the form is safe, log 4; 0 as the
reset contents is unsafe, log 3). -/
abbrev Elems := List (Nat × Word64)

/-- Who drives a host access: the one host of R54, or any other bus master or thread. -/
inductive Master where
  | host | other
  deriving DecidableEq, Repr

/-- The direction of a host access (R150). -/
inductive Dir where
  | read | write
  deriving DecidableEq, Repr

/-- One access on the bus (R41, R42, R150): its master, direction, width in bits, host byte address and write data.
The port has 32 lines of write data; an access of another width is rejected before its data matter (R44).
DESIGN CHOICE (safe; log 17). -/
structure Access where
  master : Master
  dir : Dir
  bits : Nat
  addr : Nat
  wdata : Word32
  deriving DecidableEq, Repr

/-- One interaction of the outside world with the core (R162), served one a step (DESIGN CHOICE, safe; log 1). -/
inductive Input where
  /-- A host access, served to completion (R50). -/
  | access (a : Access)
  /-- A host access during which `rst` is asserted: it, and a command it started, are abandoned (R152; log 10). -/
  | cutAccess (a : Access)
  /-- The level of `rst` is set (R151). -/
  | rst (asserted : Bool)
  /-- A platform power-down, with power back at its end (R146). DEDUCED (unsafe where a platform retains
  state; log 12). It comes between two accesses and cuts none: the spec gives a cut access's response for `rst` only
  (R152). DESIGN CHOICE (unsafe for a claim that every access gets a response; log 18). -/
  | powerDown
  deriving DecidableEq, Repr

/-- What the host gets back for one access (R162, R44, R152). -/
inductive Response where
  /-- A write, acknowledged. -/
  | ack
  /-- A read, with its data. -/
  | data (v : Word32)
  /-- A write that got a bus error (R44). -/
  | writeError
  /-- A read that got a bus error, with the data returned beside it (R44). -/
  | readError (v : Word32)
  /-- No response: `rst` cut the access (R152, 93 S6). -/
  | noResponse
  deriving DecidableEq, Repr

/-- The machine. The fields from `mode` to `code` are the architectural state R20, "Nothing else is state"; `cfg` is
the instance's configuration (log 2), `rst` the reset input (R150), and `inputs` and `log` are the model's own: the
accesses of a run not yet served, and the responses given so far (R161; DESIGN CHOICE, safe; log 1). -/
structure State where
  /-- MODE (R22). -/
  mode : Mode
  /-- CAP (R23). -/
  cap : Word16
  /-- TAIL (R24). -/
  tail : Word16
  /-- Stor, the element storage (R26). -/
  stor : Elems
  /-- Wts, the active weights (R27). -/
  wts : Elems
  /-- WStage, the staged weights (R28). -/
  wstage : Elems
  /-- WCOUNT (R29). -/
  wcount : Word16
  /-- DIN = DIN_HI, DIN_LO (R30). -/
  din : Word64
  /-- DOUT = DOUT_HI, DOUT_LO (R31). -/
  dout : Word64
  /-- CODE (R32). -/
  code : Code
  /-- N_MAX and BASE (R7). -/
  cfg : Config
  /-- The level of the reset input, active high (R150). -/
  rst : Bool
  /-- Host interactions not yet served, oldest first. -/
  inputs : List Input
  /-- The responses given so far, oldest first. -/
  log : List Response
  deriving DecidableEq, Repr

/-- The state after reset of a core with the given configuration (R39, R151). The arrays, which R39 leaves
unspecified, hold 0 (DESIGN CHOICE, unsafe; log 3). -/
def State.resetWith (c : Config) : State :=
  { mode := .unconfigured, cap := 0#16, tail := 0#16, stor := [], wts := [], wstage := [], wcount := 0#16,
    din := 0#64, dout := 0#64, code := .ok, cfg := c, rst := false, inputs := [], log := [] }

/-- The machine right after reset, in the reference configuration of D29 (log 2). -/
def State.reset : State := State.resetWith Config.reference

/-- Why the machine stops with a fault. -/
inductive Fault where
  /-- Raised by the element primitives of Machine/Ops.lean when an index breaks its requirement in R51. Safe: no
  command raises it from a state that meets R21 (log 5). -/
  | elementOutOfRange
  deriving DecidableEq, Repr

/-- Why a step has no meaning. -/
inductive Refusal where
  /-- Raised by an arm of exec whose instruction has no meaning yet. Safe. -/
  | notModelled (mnemonic : String)
  /-- Raised by the port for an access of a second master: the spec admits one host and refuses two (R54, D23).
  Safe (log 8). -/
  | secondHost
  /-- Raised by the port for an address outside the window, of which the spec says nothing (R41). Safe (log 7). -/
  | outsideWindow
  /-- Raised by the port for an access while `rst` is asserted, which the core does not accept (R151, 93 S7).
  Safe (log 9). -/
  | accessInReset
  deriving DecidableEq, Repr

/-- What a step, a command or a meaning answers. -/
abbrev Result := Host.Outcome State Fault Refusal

end Sys2Proof.Machine
end

