-- ==== Sys2Proof/Machine/Ops.lean ====
section
/-! DEFINITION. The named operations over the element arrays and the registers: array reads and writes, the checked
element primitives of R51, the completion of a command (R131), and the effect of reset (R151). -/

namespace Sys2Proof.Machine

/-! ### Element arrays -/

/-- The element at an index; an index that is not listed holds 0. -/
def Elems.read : Elems → Nat → Word64
  | [], _ => 0#64
  | (q, v) :: rest, p => if q = p then v else Elems.read rest p

/-- One element as a canonical array: 0 is not listed. -/
def Elems.cell (p : Nat) (v : Word64) : Elems := if v = 0#64 then [] else [(p, v)]

/-- The array with one element replaced (R10: `Stor[p] <- v`). -/
def Elems.write : Elems → Nat → Word64 → Elems
  | [], p, v => Elems.cell p v
  | (q, w) :: rest, p, v =>
    if p < q then Elems.cell p v ++ (q, w) :: rest
    else if p = q then Elems.cell p v ++ rest
    else (q, w) :: Elems.write rest p v

/-- The elements at n and above. -/
def Elems.from (a : Elems) (n : Nat) : Elems := a.filter fun c => decide (n ≤ c.1)

/-- The elements below n. -/
def Elems.below (a : Elems) (n : Nat) : Elems := a.filter fun c => decide (c.1 < n)

/-- `for p in 0 .. n-1 : a[p] <- v` (R82, R106). -/
def Elems.fill (a : Elems) (n : Nat) (v : Word64) : Elems :=
  ((List.range n).flatMap fun p => Elems.cell p v) ++ a.from n

/-- `for p in 0 .. n-1 : a[p] <- src[p]` (R106). -/
def Elems.copyFrom (a src : Elems) (n : Nat) : Elems := src.below n ++ a.from n

/-- Canonical form above a bound: indices at least `lo` and below `size`, strictly rising, no element 0. -/
def Elems.wfFrom (size : Nat) : Nat → Elems → Bool
  | _, [] => true
  | lo, (p, v) :: rest =>
    decide (lo ≤ p) && decide (p < size) && decide (v ≠ 0#64) && Elems.wfFrom size (p + 1) rest

/-- Canonical form of an array of `size` elements (log 4). -/
def Elems.wf (size : Nat) (a : Elems) : Bool := Elems.wfFrom size 0 a

/-! ### The element primitives of R51 -/

/-- N_MAX as a number (R7). -/
def State.nMax (s : State) : Nat := s.cfg.nMax.toNat

/-- StorRead(p): requires p < CAP (R51), and that Stor has an element p (R26). -/
def State.storRead (s : State) (p : Nat) : Except Fault Word64 :=
  if p < s.cap.toNat ∧ p < s.nMax then .ok (s.stor.read p) else .error .elementOutOfRange

/-- StorWrite(p, v): requires p < CAP (R51), and that Stor has an element p (R26). -/
def State.storWrite (s : State) (p : Nat) (v : Word64) : Except Fault State :=
  if p < s.cap.toNat ∧ p < s.nMax then .ok { s with stor := s.stor.write p v } else .error .elementOutOfRange

/-- WtsRead(p): requires p < CAP and FIR mode (R51), and that Wts has an element p (R27). -/
def State.wtsRead (s : State) (p : Nat) : Except Fault Word64 :=
  if s.mode = .fir ∧ p < s.cap.toNat ∧ p < s.nMax then .ok (s.wts.read p) else .error .elementOutOfRange

/-- The write of WLOAD: `WStage[WCOUNT] <- v`, done while WCOUNT < N_MAX (R51, R104). -/
def State.wstageAppend (s : State) (v : Word64) : Except Fault State :=
  if s.wcount.toNat < s.nMax then
    .ok { s with wstage := s.wstage.write s.wcount.toNat v, wcount := s.wcount + 1#16 }
  else .error .elementOutOfRange

/-! ### Registers and completion -/

/-- `complete(code)`: CODE <- code, and the command ends (R10, R131). Every command error is this and nothing else;
the core has no trap entry and no trap return (R130, R138, R139). -/
def State.complete (s : State) (c : Code) : State := { s with code := c }

/-- `DOUT <- v` (R10, R31). -/
def State.putDout (s : State) (v : Word64) : State := { s with dout := v }

/-- `complete(code)` as the answer of a command. -/
def completed (s : State) (c : Code) : Result := .next (s.complete c)

/-- A command's answer from a computation over the element primitives: its result, completed OK, or the fault. -/
def finish (r : Except Fault State) : Result :=
  match r with
  | .ok s => completed s .ok
  | .error f => .fault f

/-- Executing a word that encodes no command: `complete(ILLEGAL_COMMAND)` (R65). -/
def execIllegal (s : State) : Result := completed s .illegalCommand

/-! ### Reset and the record of a run -/

/-- Every architectural element takes its reset value (R39, R151); configuration, input level and the run's record
are not the core's state and stay. -/
def State.archReset (s : State) : State :=
  { State.resetWith s.cfg with rst := s.rst, inputs := s.inputs, log := s.log }

/-- The level of `rst` becomes `b` (R150). -/
def State.setRst (s : State) (b : Bool) : State := { s with rst := b }

/-- The next interaction is taken from the queue. -/
def State.setInputs (s : State) (l : List Input) : State := { s with inputs := l }

/-- One more response is recorded (R161). -/
def State.respond (s : State) (r : Response) : State := { s with log := s.log ++ [r] }

end Sys2Proof.Machine
end

