-- ==== Sys2Proof/Machine/Flags.lean ====
section
/-! DEFINITION. The status register and the mode checks: the bits of CODE (R132) and MODE (R22), STATUS (R35), and
which modes admit a command (R81, R101, R133). CODE is the core's only flag (R32). -/

namespace Sys2Proof.Machine

/-- The 4-bit status code (R132). -/
def Code.bits : Code → BitVec 4
  | .ok => 0#4
  | .invalidCapacity => 1#4
  | .invalidSize => 2#4
  | .weightLengthMismatch => 3#4
  | .capacityTooLarge => 4#4
  | .notConfigured => 5#4
  | .modeError => 6#4
  | .indexOutOfRange => 7#4
  | .stagingFull => 8#4
  | .illegalCommand => 9#4

/-- The 2-bit mode (R22). -/
def Mode.bits : Mode → BitVec 2
  | .unconfigured => 0#2
  | .ring => 1#2
  | .fir => 2#2

/-- STATUS = zext_32(MODE, CODE): CODE in bits 3:0, MODE in bits 5:4 (R35). -/
def State.status (s : State) : Word32 := (s.mode.bits ++ s.code.bits).setWidth 32

/-- A command that needs an object, of either kind (R81): NOT_CONFIGURED when there is none. -/
def needObject (s : State) (body : Result) : Result :=
  match s.mode with
  | .unconfigured => completed s .notConfigured
  | .ring => body
  | .fir => body

/-- A command that needs a plain ring buffer (R81): NOT_CONFIGURED, then MODE_ERROR in FIR mode. -/
def needRing (s : State) (body : Result) : Result :=
  match s.mode with
  | .unconfigured => completed s .notConfigured
  | .ring => body
  | .fir => completed s .modeError

/-- A command that needs a filter (R101): NOT_CONFIGURED, then MODE_ERROR in RING mode. -/
def needFir (s : State) (body : Result) : Result :=
  match s.mode with
  | .unconfigured => completed s .notConfigured
  | .ring => completed s .modeError
  | .fir => body

end Sys2Proof.Machine
end

