-- ==== Sys2Proof/Machine/Operands.lean ====
section
/-! DEFINITION. Operand forms: the logical-to-physical index (R80), the push slot, and the halves of the 64-bit
registers DIN and DOUT (R30, R31, R47). -/

namespace Sys2Proof.Machine

/-- `phys(i) = (TAIL + 1 + i) mod CAP`, computed exactly (R25, R80). -/
def State.phys (s : State) (i : Nat) : Nat := (s.tail.toNat + 1 + i) % s.cap.toNat

/-- Bits 31:0, the LO half (R47). -/
def loHalf (v : Word64) : Word32 := v.extractLsb' 0 32

/-- Bits 63:32, the HI half (R47). -/
def hiHalf (v : Word64) : Word32 := v.extractLsb' 32 32

/-- The 64-bit value of its halves, HI first (R47). -/
def joinHalves (hi lo : Word32) : Word64 := hi ++ lo

/-- A write of DIN_LO changes only that half (R48). -/
def State.writeDinLo (s : State) (v : Word32) : State := { s with din := joinHalves (hiHalf s.din) v }

/-- A write of DIN_HI changes only that half (R48). -/
def State.writeDinHi (s : State) (v : Word32) : State := { s with din := joinHalves v (loHalf s.din) }

/-- RBPUSH's and FILTER's push (R88, R110): `Stor[phys(0)] <- v`, `TAIL <- phys(0)`; answers the evicted element, read
before the slot is written. -/
def State.pushSlot (s : State) (v : Word64) : Except Fault (Word64 × State) :=
  let p := s.phys 0
  match s.storRead p, s.storWrite p v with
  | .ok old, .ok s' => .ok (old, { s' with tail := BitVec.ofNat 16 p })
  | .error f, _ => .error f
  | _, .error f => .error f

end Sys2Proof.Machine
end

