-- ==== Sys2Proof/Machine/FirFilter.lean ====
section
/-! DEFINITION. The FIR filter commands (41_fir_filter): WCLR, WLOAD, FIRINIT, FIRSIZE, FILTER. -/

namespace Sys2Proof.Machine

/-- WCLR (R102): WCOUNT <- 0, legal in every mode; WStage keeps its contents. -/
def execWclr (s : State) : Result := completed { s with wcount := 0#16 } .ok

/-- WLOAD (R104): WStage[WCOUNT] <- DIN, WCOUNT + 1; STAGING_FULL when WCOUNT = N_MAX. -/
def execWload (s : State) : Result :=
  if s.wcount = s.cfg.nMax then completed s .stagingFull else finish (s.wstageAppend s.din)

/-- FIRINIT (R106): a new filter of `size` taps with the staged weights and a delay line of +0.0 replaces any object.
The three checks come in the order of R134. -/
def execFirinit (size : Word16) (s : State) : Result :=
  if size = 0#16 then completed s .invalidSize
  else if s.cfg.nMax < size then completed s .capacityTooLarge
  else if s.wcount ≠ size then completed s .weightLengthMismatch
  else
    completed
      { s with
        cap := size, tail := size - 1#16, stor := s.stor.fill size.toNat 0#64,
        wts := s.wts.copyFrom s.wstage size.toNat, mode := .fir } .ok

/-- FIRSIZE (R108): DOUT <- zext_64(CAP), in FIR mode only. -/
def execFirsize (s : State) : Result :=
  needFir s (completed (s.putDout (s.cap.setWidth 64)) .ok)

/-- One multiply-accumulate of R110: tap i onto the accumulator, the product rounded before the sum (R114). -/
def State.macStep (s : State) (i : Nat) (acc : Word64) : Except Fault Word64 :=
  match s.wtsRead i, s.storRead (s.phys i) with
  | .ok w, .ok d => .ok (fadd64 acc (fmul64 w d))
  | .error f, _ => .error f
  | _, .error f => .error f

/-- The accumulator of R110 after taps 0 .. n-1, index-ascending from +0.0. -/
def State.macUpTo (s : State) : Nat → Except Fault Word64
  | 0 => .ok 0#64
  | n + 1 => (s.macUpTo n).bind (s.macStep n)

/-- FILTER (R110): DIN is pushed, the evicted sample discarded, and DOUT <- the dot product of the weights with the
delay line after the push. -/
def execFilter (s : State) : Result :=
  needFir s
    (finish ((s.pushSlot s.din).bind fun r => (r.2.macUpTo r.2.cap.toNat).map r.2.putDout))

end Sys2Proof.Machine
end

