-- ==== Sys2Proof/Machine/RingBuffer.lean ====
section
/-! DEFINITION. The ring-buffer commands (40_ring_buffer): RBINIT, RBLEN, RBGET, RBPUSH, RBPEEK. -/

namespace Sys2Proof.Machine

/-- RBINIT (R82): a new ring buffer of `capacity` slots holding DIN replaces any object. -/
def execRbinit (capacity : Word16) (s : State) : Result :=
  if capacity = 0#16 then completed s .invalidCapacity
  else if s.cfg.nMax < capacity then completed s .capacityTooLarge
  else
    completed
      { s with cap := capacity, tail := capacity - 1#16, stor := s.stor.fill capacity.toNat s.din, mode := .ring } .ok

/-- RBLEN (R84): DOUT <- zext_64(CAP). -/
def execRblen (s : State) : Result :=
  needObject s (completed (s.putDout (s.cap.setWidth 64)) .ok)

/-- RBGET (R86): DOUT <- Stor[phys(i)]; an index past the capacity wraps. -/
def execRbget (logicalIndex : Word16) (s : State) : Result :=
  needObject s (finish ((s.storRead (s.phys logicalIndex.toNat)).map s.putDout))

/-- RBPUSH (R88): DIN replaces the oldest element, which goes to DOUT. -/
def execRbpush (s : State) : Result :=
  needRing s (finish ((s.pushSlot s.din).map fun r => r.2.putDout r.1))

/-- RBPEEK (R90): DOUT <- Stor[p]; a physical index past the capacity is INDEX_OUT_OF_RANGE. -/
def execRbpeek (physicalIndex : Word16) (s : State) : Result :=
  needObject s
    (if s.cap ≤ physicalIndex then completed s .indexOutOfRange
     else finish ((s.storRead physicalIndex.toNat).map s.putDout))

end Sys2Proof.Machine
end

