-- ==== Sys2Proof/Machine/Dispatch.lean ====
section
/-! DEFINITION. One command, one meaning. -/

namespace Sys2Proof.Machine

def exec (i : Instr) (s : State) : Host.Outcome State Fault Refusal :=
  match i with
  | .rbinit n => Sys2Proof.Machine.execRbinit n s
  | .rblen => Sys2Proof.Machine.execRblen s
  | .rbget n => Sys2Proof.Machine.execRbget n s
  | .rbpush => Sys2Proof.Machine.execRbpush s
  | .rbpeek n => Sys2Proof.Machine.execRbpeek n s
  | .wclr => Sys2Proof.Machine.execWclr s
  | .wload => Sys2Proof.Machine.execWload s
  | .firinit n => Sys2Proof.Machine.execFirinit n s
  | .firsize => Sys2Proof.Machine.execFirsize s
  | .filter => Sys2Proof.Machine.execFilter s

end Sys2Proof.Machine
end

