-- ==== Sys2Proof/Decode.lean ====
section
/-! DEFINITION. Command words: their fields (R60), the opcode map (R63), the decoder (R64) with the reasons of R65,
the encoder, the assembler of R67, and the bus byte lanes (R47). -/

namespace Sys2Proof

/-- OP, bits 31:24 of a command word (R60). -/
def opOf (w : Word32) : BitVec 8 := w.extractLsb' 24 8

/-- RSVD, bits 23:16 of a command word (R60). -/
def rsvdOf (w : Word32) : BitVec 8 := w.extractLsb' 16 8

/-- ARG, bits 15:0 of a command word (R60). -/
def argOf (w : Word32) : Word16 := w.extractLsb' 0 16

/-- Why a word is no command: the four clauses of R65. -/
inductive Illegal where
  /-- R65 (a): OP = 0x00. -/
  | opZero
  /-- R65 (b): OP in 0x06 .. 0x0F or 0x15 .. 0xFF. -/
  | opUnassigned
  /-- R65 (c): an OP of R63 with RSVD other than 0x00. -/
  | reservedNonzero
  /-- R65 (d): a command without an argument, with ARG other than 0x0000. -/
  | argNonzero
  deriving DecidableEq, Repr

/-- One row of the opcode map R63. `pattern` is the column "match". -/
structure OpcodeRow where
  pattern : Word32
  mask : Word32
  build : Word16 → Instr

/-- The opcode map (R63), row by row. -/
def opcodeMap : List OpcodeRow :=
  [ { pattern := 0x01000000#32, mask := 0xFFFF0000#32, build := .rbinit },
    { pattern := 0x02000000#32, mask := 0xFFFFFFFF#32, build := fun _ => .rblen },
    { pattern := 0x03000000#32, mask := 0xFFFF0000#32, build := .rbget },
    { pattern := 0x04000000#32, mask := 0xFFFFFFFF#32, build := fun _ => .rbpush },
    { pattern := 0x05000000#32, mask := 0xFFFF0000#32, build := .rbpeek },
    { pattern := 0x10000000#32, mask := 0xFFFFFFFF#32, build := fun _ => .wclr },
    { pattern := 0x11000000#32, mask := 0xFFFFFFFF#32, build := fun _ => .wload },
    { pattern := 0x12000000#32, mask := 0xFFFF0000#32, build := .firinit },
    { pattern := 0x13000000#32, mask := 0xFFFFFFFF#32, build := fun _ => .firsize },
    { pattern := 0x14000000#32, mask := 0xFFFFFFFF#32, build := fun _ => .filter } ]

/-- `(w AND mask) = match` (R64). -/
def OpcodeRow.selects (r : OpcodeRow) (w : Word32) : Bool := w &&& r.mask == r.pattern

/-- Which clause of R65 a word falls under, for a word that no row selects. -/
def whyIllegal (w : Word32) : Illegal :=
  if opOf w = 0x00#8 then .opZero
  else if !(opcodeMap.any fun r => opOf r.pattern == opOf w) then .opUnassigned
  else if rsvdOf w ≠ 0x00#8 then .reservedNonzero
  else .argNonzero

/-- Decoding (R64): the row that selects the word, with ARG as its operand; a word that no row selects is illegal,
with its clause of R65. MODE plays no part (R61). -/
def decode (w : Word32) : Except Illegal Instr :=
  match opcodeMap.find? (·.selects w) with
  | some r => .ok (r.build (argOf w))
  | none => .error (whyIllegal w)

/-- A command word from its fields, RSVD = 0x00 (R60). -/
def commandWord (op : BitVec 8) (arg : Word16) : Word32 := op ++ 0x00#8 ++ arg

/-- The command word of a command, from the OP column of R63. -/
def encode : Instr → Word32
  | .rbinit n => commandWord 0x01#8 n
  | .rblen => commandWord 0x02#8 0#16
  | .rbget i => commandWord 0x03#8 i
  | .rbpush => commandWord 0x04#8 0#16
  | .rbpeek p => commandWord 0x05#8 p
  | .wclr => commandWord 0x10#8 0#16
  | .wload => commandWord 0x11#8 0#16
  | .firinit n => commandWord 0x12#8 n
  | .firsize => commandWord 0x13#8 0#16
  | .filter => commandWord 0x14#8 0#16

/-- The command an assembler line stands for, its operand already checked by AsmLine.wf (R67). -/
def AsmLine.toInstr (l : AsmLine) : Instr :=
  let n : Word16 := BitVec.ofNat 16 (l.operand.getD 0)
  match l.mnemonic with
  | .rbinit => .rbinit n
  | .rblen => .rblen
  | .rbget => .rbget n
  | .rbpush => .rbpush
  | .rbpeek => .rbpeek n
  | .wclr => .wclr
  | .wload => .wload
  | .firinit => .firinit n
  | .firsize => .firsize
  | .filter => .filter

/-- The assembler of R67: the word match | n, or a rejection. -/
def assemble (l : AsmLine) : Option Word32 := if l.wf then some (encode l.toInstr) else none

/-- Byte lane k of a register: register bits [8k+7 : 8k] (R47), the byte at address BASE + off + k. -/
def laneOf (v : Word32) (k : Nat) : Byte := v.extractLsb' (8 * k) 8

/-- The four bytes of a register in address order: little-endian (R47). -/
def lanesOf (v : Word32) : List Byte := [laneOf v 0, laneOf v 1, laneOf v 2, laneOf v 3]

/-- The register whose four bytes in address order are given (R47); any other number of bytes is no register (R42). -/
def ofLanes : List Byte → Option Word32
  | [b0, b1, b2, b3] => some (b3 ++ b2 ++ b1 ++ b0)
  | _ => none

/-- The decoder on the bytes of a command word as they travel on the bus (R47, R61: exactly 32 bits). -/
def decodeBytes (bs : List Byte) : Option Instr :=
  match ofLanes bs with
  | none => none
  | some w =>
    match decode w with
    | .ok i => some i
    | .error _ => none

/-- The 32-bit command word whose low `nbits` bits are those of `w` and whose other bits are 0. -/
def tableWord (nbits w : Nat) : Word32 := BitVec.ofNat 32 (w % 2 ^ nbits)

/-- The command this decoder reads from a table row's word, laid out on the byte lanes of the bus; more than the 32
bits of a command word are no command (R61). -/
def decodeTableWord (nbits w : Nat) : Option Instr :=
  if nbits ≤ 32 then decodeBytes (lanesOf (tableWord nbits w)) else none

end Sys2Proof
end

