-- ==== Sys2Proof/Machine/Port.lean ====
section
/-! DEFINITION. The register port: the window (R40, R41), the register map (R33), the rules of an access (R42 to
R48), and the host interactions of R162. A CMD write is handed on as the command to run. -/

namespace Sys2Proof.Machine

/-- The byte offset of a host address in the window, if it is in the window (R41). -/
def windowOffset (c : Config) (addr : Nat) : Option Nat :=
  if c.base ≤ addr ∧ addr < c.base + 0x40 then some (addr - c.base) else none

/-- The offset of CMD (R33). -/
def cmdOffset : Nat := 0x08

/-- A register read: the map of R33, CMD reads 0 (R46), reserved offsets read as zero (R45). -/
def State.readReg (s : State) (off : Nat) : Word32 :=
  match off with
  | 0x00 => s.cfg.nMax.setWidth 32
  | 0x04 => s.status
  | 0x0C => s.cap.setWidth 32
  | 0x10 => s.tail.setWidth 32
  | 0x14 => s.wcount.setWidth 32
  | 0x18 => loHalf s.din
  | 0x1C => hiHalf s.din
  | 0x20 => loHalf s.dout
  | 0x24 => hiHalf s.dout
  | _ => 0#32

/-- A register write that starts no command: DIN halves (R48); read-only registers and reserved offsets ignore it
(R45, R46). -/
def State.writeReg (s : State) (off : Nat) (v : Word32) : State :=
  match off with
  | 0x18 => s.writeDinLo v
  | 0x1C => s.writeDinHi v
  | _ => s

/-- The response of a bus error: a write is dropped, a read returns 0 with the error (R44). That the run goes on after
it is a DESIGN CHOICE (safe; log 6). -/
def busError : Dir → Response
  | .read => .readError 0#32
  | .write => .writeError

/-- Which accesses reach the core, and at which offset: in the window (R41), from its one host (R54), and not while
`rst` is asserted (R151). The refusals: DESIGN CHOICE, DEDUCED and DESIGN CHOICE (safe; log 7, log 8, log 9). -/
def admitAccess (s : State) (a : Access) : Except Refusal Nat :=
  match windowOffset s.cfg a.addr with
  | none => .error .outsideWindow
  | some off =>
    if a.master ≠ .host then .error .secondHost
    else if s.rst then .error .accessInReset
    else .ok off

/-- An access the port carries out: 32 bits wide and naturally aligned (R42, R43). -/
def aligned32 (a : Access) (off : Nat) : Bool := decide (a.bits = 32) && decide (off % 4 = 0)

/-- What serving one host interaction comes to. -/
inductive Served where
  /-- It is over, in this state. -/
  | done (s : State)
  /-- It was a write of this command word to CMD, to be executed in this state (R36). -/
  | command (w : Word32) (s : State)
  /-- It has no meaning. -/
  | refuse (r : Refusal)
  deriving DecidableEq, Repr

/-- One host access (R42 to R48). The response of a CMD write is recorded with the access; the host gets it once the
command completes, within the same step (R50, R162). -/
def serveAccess (s : State) (a : Access) : Served :=
  match admitAccess s a with
  | .error r => .refuse r
  | .ok off =>
    if aligned32 a off then
      match a.dir with
      | .read => .done (s.respond (.data (s.readReg off)))
      | .write =>
        if off = cmdOffset then .command a.wdata (s.respond .ack)
        else .done ((s.writeReg off a.wdata).respond .ack)
    else .done (s.respond (busError a.dir))

/-- An access during which `rst` is asserted: it has no effect of its own and gets no response; the core is in reset
(R152, 93 S6). The record of the missing response is a DESIGN CHOICE (safe; log 10). -/
def serveCut (s : State) (a : Access) : Served :=
  match admitAccess s a with
  | .error r => .refuse r
  | .ok _ => .done ((s.archReset.setRst true).respond .noResponse)

/-- The level of `rst`: every element has its reset value when it is asserted and when it is deasserted (R151).
DEDUCED (safe; log 11). -/
def serveRst (s : State) (asserted : Bool) : State :=
  if asserted then s.archReset.setRst true
  else if s.rst then s.archReset.setRst false
  else s

/-- One host interaction (R162, R152, R146). A power-down gives the reset state and leaves `rst` at its level (DEDUCED;
unsafe where a platform retains state; log 12); it is served between accesses only, the spec leaving open what an
access that it cuts gets (DESIGN CHOICE; unsafe for a claim that every access gets a response; log 18). -/
def serve (s : State) : Input → Served
  | .access a => serveAccess s a
  | .cutAccess a => serveCut s a
  | .rst b => .done (serveRst s b)
  | .powerDown => .done s.archReset

end Sys2Proof.Machine
end

