-- ==== Sys2Proof/Machine/HostNotation.lean ====
section
/-! DEFINITION. The host notation of the spec: register accesses (R67), the pseudo-instructions (R68), and the host
procedures the spec writes out: boot (R154) and rendering (R92). They are lists of interactions, nothing the core
runs. Each takes the configuration, for BASE. -/

namespace Sys2Proof.Machine

/-- `WR off, v32` (R67). -/
def wr (c : Config) (off : Nat) (v : Word32) : Input :=
  .access { master := .host, dir := .write, bits := 32, addr := c.base + off, wdata := v }

/-- `RD off` (R67). -/
def rd (c : Config) (off : Nat) : Input :=
  .access { master := .host, dir := .read, bits := 32, addr := c.base + off, wdata := 0#32 }

/-- A command line: the access `WR 0x08, word` (R67). -/
def cmd (c : Config) (i : Instr) : Input := wr c cmdOffset (encode i)

/-- `DIN v64` (R68). -/
def pseudoDin (c : Config) (v : Word64) : List Input := [wr c 0x18 (loHalf v), wr c 0x1C (hiHalf v)]

/-- `RDOUT` (R68). -/
def pseudoRdout (c : Config) : List Input := [rd c 0x20, rd c 0x24]

/-- `RSTAT` (R68). -/
def pseudoRstat (c : Config) : List Input := [rd c 0x04]

/-- `PUSH v64` (R68). -/
def pseudoPush (c : Config) (v : Word64) : List Input := pseudoDin c v ++ [cmd c .rbpush]

/-- `WLD v64` (R68). -/
def pseudoWld (c : Config) (v : Word64) : List Input := pseudoDin c v ++ [cmd c .wload]

/-- `FILT v64` (R68). -/
def pseudoFilt (c : Config) (v : Word64) : List Input := pseudoDin c v ++ [cmd c .filter]

/-- `INIT v64, #n` (R68). -/
def pseudoInit (c : Config) (v : Word64) (n : Word16) : List Input := pseudoDin c v ++ [cmd c (.rbinit n)]

/-- Boot of a ring buffer, R154 steps 1 to 4, for a chosen n. -/
def bootRing (c : Config) (v : Word64) (n : Word16) : List Input :=
  [rd c 0x00] ++ pseudoInit c v n ++ pseudoRstat c

/-- Boot of a filter, R154 steps 1 to 5: n is the number of weights. -/
def bootFir (c : Config) (weights : List Word64) : List Input :=
  [rd c 0x00, cmd c .wclr] ++ weights.flatMap (pseudoWld c) ++
    [cmd c (.firinit (BitVec.ofNat 16 weights.length))] ++ pseudoRstat c

/-- Logical-order rendering of an object of the given capacity (R92). -/
def renderLogical (c : Config) (capacity : Nat) : List Input :=
  [rd c 0x0C] ++ (List.range capacity).flatMap fun i => cmd c (.rbget (BitVec.ofNat 16 i)) :: pseudoRdout c

/-- Raw rendering of an object of the given capacity (R92). -/
def renderRaw (c : Config) (capacity : Nat) : List Input :=
  [rd c 0x0C, rd c 0x10] ++ (List.range capacity).flatMap fun p => cmd c (.rbpeek (BitVec.ofNat 16 p)) :: pseudoRdout c

end Sys2Proof.Machine
end

