-- ==== Sys2Proof/Machine/Step.lean ====
section
/-! DEFINITION. One step: one host interaction, a CMD write with the whole command it starts included (R11, R50). -/

namespace Sys2Proof.Machine

/-- Executing a command word (R36, R64): the command it encodes, or ILLEGAL_COMMAND (R65). -/
def runCommand (w : Word32) (s : State) : Host.Outcome State Fault Refusal :=
  match decode w with
  | .ok i => exec i s
  | .error _ => execIllegal s

/-- One step. With no interaction to serve, the core waits and nothing changes (R153). -/
def step (s : State) : Host.Outcome State Fault Refusal :=
  match s.inputs with
  | [] => .next s
  | input :: rest =>
    match serve (s.setInputs rest) input with
    | .done t => .next t
    | .command w t => runCommand w t
    | .refuse r => .refused r

/-- `s` about to serve a write of this word to CMD: the access is put before the others and `rst` is low, so that the
next step runs the word (log 1). -/
def State.withFetchWord (s : State) (nbits w : Nat) : State :=
  (s.setRst false).setInputs (wr s.cfg cmdOffset (tableWord nbits w) :: s.inputs)

end Sys2Proof.Machine
end

