-- ==== Sys2Proof/Safety.lean ====
section
/-! DEFINITION. The terms claims are made in: the invariants of R21, what a run observes (R161), what the host can
never observe (R38), and the source-level reading of the buffer and the filter (R25, R89, R110). -/

namespace Sys2Proof.Machine

/-! ### The invariants -/

/-- The invariants of R21 (a) to (d), with the model's own: an admissible configuration (R7), the canonical form of
the three arrays (log 4), and the reset values while `rst` is asserted (log 11). R21 (e) is the type of `wts` and
`cap`; R21 (f) speaks of steps. -/
structure State.Inv (s : State) : Prop where
  cfgWf : s.cfg.wf = true
  unconfiguredIff : s.mode = .unconfigured ↔ s.cap = 0#16
  capLe : s.cap ≤ s.cfg.nMax
  tailLt : s.mode ≠ .unconfigured → s.tail < s.cap
  tailZero : s.mode = .unconfigured → s.tail = 0#16
  wcountLe : s.wcount ≤ s.cfg.nMax
  storWf : s.stor.wf s.nMax = true
  wtsWf : s.wts.wf s.nMax = true
  wstageWf : s.wstage.wf s.nMax = true
  inReset : s.rst = true → s = s.archReset

/-! ### What a run observes (R161) -/

/-- A response that records a fault of the run: a bus error (R44, R136) or no response at all (93 S6). -/
def Response.isFault : Response → Bool
  | .ack => false
  | .data _ => false
  | .writeError => true
  | .readError _ => true
  | .noResponse => true

/-- Whether the run so far recorded a fault (R161). -/
def State.faultRecorded (s : State) : Bool := s.log.any Response.isFault

/-- The value a read returned, if the response is to a read (R44, R162). -/
def Response.readValue : Response → Option Word32
  | .data v => some v
  | .readError v => some v
  | .ack => none
  | .writeError => none
  | .noResponse => none

/-- The sequence of values the reads of the run returned (R161). -/
def State.readValues (s : State) : List Word32 := s.log.filterMap Response.readValue

/-- Two states that differ at most in what R38 says no host can observe: Stor and Wts from CAP on, Wts outside FIR
mode, WStage from WCOUNT on. -/
structure SameVisible (s t : State) : Prop where
  mode : s.mode = t.mode
  cap : s.cap = t.cap
  tail : s.tail = t.tail
  wcount : s.wcount = t.wcount
  din : s.din = t.din
  dout : s.dout = t.dout
  code : s.code = t.code
  cfg : s.cfg = t.cfg
  rst : s.rst = t.rst
  inputs : s.inputs = t.inputs
  log : s.log = t.log
  stor : ∀ p, p < s.cap.toNat → s.stor.read p = t.stor.read p
  wts : s.mode = .fir → ∀ p, p < s.cap.toNat → s.wts.read p = t.wts.read p
  wstage : ∀ p, p < s.wcount.toNat → s.wstage.read p = t.wstage.read p

/-! ### What a command reports (R65, R132 to R134) -/

/-- The answer `complete(c)`: CODE becomes c, and nothing else changes (R131). -/
def Reports (s : State) (c : Code) (r : Result) : Prop := r = .next { s with code := c }

/-- The OP values of R63. -/
def assignedOps : List (BitVec 8) :=
  [0x01#8, 0x02#8, 0x03#8, 0x04#8, 0x05#8, 0x10#8, 0x11#8, 0x12#8, 0x13#8, 0x14#8]

/-- The OP values of R65 (d): the commands whose ARG must be 0. -/
def noArgOps : List (BitVec 8) := [0x02#8, 0x04#8, 0x10#8, 0x11#8, 0x13#8, 0x14#8]

/-- The illegal words as R65 lists them, (a) to (d), said of the fields and not of the rows of R63. -/
def illegalWord (w : Word32) : Prop :=
  opOf w = 0x00#8 ∨
  (0x06#8 ≤ opOf w ∧ opOf w ≤ 0x0F#8 ∨ 0x15#8 ≤ opOf w) ∨
  (opOf w ∈ assignedOps ∧ rsvdOf w ≠ 0x00#8) ∨
  (opOf w ∈ noArgOps ∧ argOf w ≠ 0x0000#16)

/-- The mode table of R133: the code a legal command reports because of the mode, or none where it is "exec". -/
def admission : Instr → Mode → Option Code
  | .rbinit _, _ => none
  | .rblen, .unconfigured => some .notConfigured
  | .rblen, _ => none
  | .rbget _, .unconfigured => some .notConfigured
  | .rbget _, _ => none
  | .rbpush, .unconfigured => some .notConfigured
  | .rbpush, .ring => none
  | .rbpush, .fir => some .modeError
  | .rbpeek _, .unconfigured => some .notConfigured
  | .rbpeek _, _ => none
  | .wclr, _ => none
  | .wload, _ => none
  | .firinit _, _ => none
  | .firsize, .unconfigured => some .notConfigured
  | .firsize, .ring => some .modeError
  | .firsize, .fir => none
  | .filter, .unconfigured => some .notConfigured
  | .filter, .ring => some .modeError
  | .filter, .fir => none

/-- The argument checks of a command in the order its rule lists them (R134, item 4), with what makes each fail. -/
def argumentErrors (i : Instr) (s : State) : List (Bool × Code) :=
  match i with
  | .rbinit n => [(decide (n = 0#16), .invalidCapacity), (decide (s.cfg.nMax < n), .capacityTooLarge)]
  | .firinit n =>
    [(decide (n = 0#16), .invalidSize), (decide (s.cfg.nMax < n), .capacityTooLarge),
     (decide (s.wcount ≠ n), .weightLengthMismatch)]
  | .rbpeek n => [(decide (s.cap ≤ n), .indexOutOfRange)]
  | .wload => [(decide (s.wcount = s.cfg.nMax), .stagingFull)]
  | .rblen => []
  | .rbget _ => []
  | .rbpush => []
  | .wclr => []
  | .firsize => []
  | .filter => []

/-- The first code whose condition holds, or OK. -/
def firstError : List (Bool × Code) → Code
  | [] => .ok
  | (failed, c) :: rest => if failed then c else firstError rest

/-- The code a legal command reports (R133, R134): the mode's, else the first failed argument check's, else OK. -/
def expectedCode (i : Instr) (s : State) : Code :=
  match admission i s.mode with
  | some c => c
  | none => firstError (argumentErrors i s)

/-! ### The source-level reading -/

/-- The logical contents, oldest first (R25, R92). -/
def State.logical (s : State) : List Word64 := (List.range s.cap.toNat).map fun i => s.stor.read (s.phys i)

/-- The active weights, `weights[0]` first (R27, R100). -/
def State.weights (s : State) : List Word64 := (List.range s.cap.toNat).map s.wts.read

/-- The dot product of R110: index-ascending, one accumulator from +0.0, unfused. -/
def dot (ws ds : List Word64) : Word64 :=
  (ws.zip ds).foldl (fun acc wd => fadd64 acc (fmul64 wd.1 wd.2)) 0#64

/-- The outputs the source's filter gives for the inputs `xs`, with history `hist` (oldest first, as long as the
weights): output k is the dot product with the window that ends at input k (R110, R111 (a)). -/
def firOutputs (ws hist xs : List Word64) : List Word64 :=
  (List.range xs.length).map fun k => dot ws (((hist ++ xs).drop (k + 1)).take ws.length)

/-- One command issued for each value of a list, with that value in DIN; answers the DOUT after each command, and the
last state. -/
def feed (i : Instr) : List Word64 → State → Option (List Word64 × State)
  | [], s => some ([], s)
  | x :: xs, s =>
    match exec i { s with din := x } with
    | .next t =>
      match feed i xs t with
      | some (ys, u) => some (t.dout :: ys, u)
      | none => none
    | .fault _ => none
    | .refused _ => none

/-- Commands issued one after the other; answers the last state. -/
def issue : List Instr → State → Option State
  | [], s => some s
  | i :: rest, s =>
    match exec i s with
    | .next t => issue rest t
    | .fault _ => none
    | .refused _ => none

/-- The commands that make or change an object's contents: RBPUSH, FILTER, RBINIT, FIRINIT (R87, R93). -/
def changesObject : Instr → Bool
  | .rbinit _ => true
  | .rblen => false
  | .rbget _ => false
  | .rbpush => true
  | .rbpeek _ => false
  | .wclr => false
  | .wload => false
  | .firinit _ => true
  | .firsize => false
  | .filter => true

end Sys2Proof.Machine
end

