-- ==== Sys2Proof/Certificates/Slice0/Obligations.lean ====
section
/-! DEFINITION. The statements for the provers, from the numbered rules of spec/. Each is one
`def Obligations.<Name> : Prop`; the docstring names the rule it formalises. -/

open Sys2Proof Sys2Proof.Machine

/-! ### Command words -/

/-- R60, R63, R64: the decoder gives back every command from its encoding, with every value of its argument. -/
def Obligations.DecodeEncodeRoundTrip : Prop := ∀ i : Instr, decode (encode i) = .ok i

/-- R60, R63: a word has one meaning: the word of a decoded command is that command's encoding. -/
def Obligations.EncodeOfDecodedWord : Prop := ∀ (w : Word32) (i : Instr), decode w = .ok i → encode i = w

/-- R64: no word is selected by two rows; the row that selects a word is the command that runs; with no such row
the word is illegal. -/
def Obligations.RowSelectsTheCommand : Prop :=
  (opcodeMap.Pairwise fun r r' => ∀ w, ¬(r.selects w = true ∧ r'.selects w = true)) ∧
  (∀ r ∈ opcodeMap, ∀ w s, r.selects w = true → runCommand w s = exec (r.build (argOf w)) s) ∧
  (∀ w s, (∀ r ∈ opcodeMap, r.selects w = false) → Reports s .illegalCommand (runCommand w s))

/-- R65: the words that match no row are those of (a) to (d), and each only sets CODE to 9, in every state. -/
def Obligations.IllegalWordsSetCodeNine : Prop :=
  (∀ w, (∀ r ∈ opcodeMap, r.selects w = false) ↔ illegalWord w) ∧
  (∀ w s, illegalWord w → Reports s .illegalCommand (runCommand w s)) ∧
  Code.illegalCommand.bits = 9#4

/-- R69: the worked encodings. -/
def Obligations.WorkedEncodings : Prop :=
  assemble ⟨.rbinit, some 5⟩ = some 0x01000005#32 ∧ decode 0x01000005#32 = .ok (.rbinit 5#16) ∧
  assemble ⟨.rbinit, some 0⟩ = some 0x01000000#32 ∧ decode 0x01000000#32 = .ok (.rbinit 0#16) ∧
  (∀ s, Reports s .invalidCapacity (runCommand 0x01000000#32 s)) ∧
  assemble ⟨.rbget, some 2⟩ = some 0x03000002#32 ∧ decode 0x03000002#32 = .ok (.rbget 2#16) ∧
  assemble ⟨.rbget, some 65535⟩ = some 0x0300FFFF#32 ∧ decode 0x0300FFFF#32 = .ok (.rbget 65535#16) ∧
  assemble ⟨.rbpush, none⟩ = some 0x04000000#32 ∧ decode 0x04000000#32 = .ok .rbpush ∧
  assemble ⟨.rbpeek, some 4⟩ = some 0x05000004#32 ∧ decode 0x05000004#32 = .ok (.rbpeek 4#16) ∧
  assemble ⟨.firinit, some 10⟩ = some 0x1200000A#32 ∧ decode 0x1200000A#32 = .ok (.firinit 10#16) ∧
  assemble ⟨.filter, none⟩ = some 0x14000000#32 ∧ decode 0x14000000#32 = .ok .filter ∧
  decode 0x00000000#32 = .error .opZero ∧ decode 0x04000001#32 = .error .argNonzero ∧
  decode 0x01010005#32 = .error .reservedNonzero ∧ decode 0x15000000#32 = .error .opUnassigned

/-- R67: the assembler gives match | n, and rejects n > 65535, an operand where none is taken, and (log 14) a missing
operand. -/
def Obligations.AssemblerWordsAndRejections : Prop :=
  (∀ n, n ≤ 65535 →
    assemble ⟨.rbinit, some n⟩ = some (0x01000000#32 ||| BitVec.ofNat 32 n) ∧
    assemble ⟨.rbget, some n⟩ = some (0x03000000#32 ||| BitVec.ofNat 32 n) ∧
    assemble ⟨.rbpeek, some n⟩ = some (0x05000000#32 ||| BitVec.ofNat 32 n) ∧
    assemble ⟨.firinit, some n⟩ = some (0x12000000#32 ||| BitVec.ofNat 32 n)) ∧
  assemble ⟨.rblen, none⟩ = some 0x02000000#32 ∧ assemble ⟨.rbpush, none⟩ = some 0x04000000#32 ∧
  assemble ⟨.wclr, none⟩ = some 0x10000000#32 ∧ assemble ⟨.wload, none⟩ = some 0x11000000#32 ∧
  assemble ⟨.firsize, none⟩ = some 0x13000000#32 ∧ assemble ⟨.filter, none⟩ = some 0x14000000#32 ∧
  (∀ m n, 65535 < n → assemble ⟨m, some n⟩ = none) ∧
  (∀ m n, m.takesArg = false → assemble ⟨m, some n⟩ = none) ∧
  (∀ m, m.takesArg = true → assemble ⟨m, none⟩ = none)

/-- R47: a register is its four little-endian lanes, and a 64-bit value its LO and HI halves. -/
def Obligations.LanesAndHalvesRebuildTheValue : Prop :=
  (∀ v : Word32, ofLanes (lanesOf v) = some v) ∧
  (∀ (v : Word32) (k : Nat), k < 4 → ∀ j, j < 8 → (laneOf v k).getLsbD j = v.getLsbD (8 * k + j)) ∧
  (∀ v : Word64, joinHalves (hiHalf v) (loHalf v) = v ∧
    (loHalf v).toNat = v.toNat % 2 ^ 32 ∧ (hiHalf v).toNat = v.toNat / 2 ^ 32)

/-! ### The step and the port -/

/-- R36, R64, R65, R50 (and log 1): a 32-bit write to CMD by the host runs the command its word encodes, as one
step: exec of it, at the state with the write taken from the queue and acknowledged; an illegal word reports
ILLEGAL_COMMAND there. -/
def Obligations.StepRunsTheDecodedCommand : Prop :=
  ∀ (s : State) (w : Word32) (rest : List Input),
    s.inputs = .access ⟨.host, .write, 32, s.cfg.base + 0x08, w⟩ :: rest → s.rst = false →
    (∀ i, decode w = .ok i → step s = exec i ((s.setInputs rest).respond .ack)) ∧
    (∀ e, decode w = .error e →
      Reports ((s.setInputs rest).respond .ack) .illegalCommand (step s))

/-- R33, R48: a register read is answered with the register's value and changes nothing (the queue and the record of
responses are the model's own, log 1). -/
def Obligations.ReadAnswersAndChangesNothing : Prop :=
  ∀ (s : State) (off : Nat) (d : Word32) (rest : List Input),
    s.inputs = .access ⟨.host, .read, 32, s.cfg.base + off, d⟩ :: rest → s.rst = false → off < 0x40 → off % 4 = 0 →
    step s = .next { s with inputs := rest, log := s.log ++ [.data (s.readReg off)] }

/-- R33, R34, R35, R45, R46: what each register reads, in every state. -/
def Obligations.RegisterMapReads : Prop :=
  ∀ s : State,
    (s.readReg 0x00).toNat = s.cfg.nMax.toNat ∧
    (s.readReg 0x04).toNat = 16 * s.mode.bits.toNat + s.code.bits.toNat ∧
    s.readReg 0x08 = 0#32 ∧
    (s.readReg 0x0C).toNat = s.cap.toNat ∧ (s.readReg 0x10).toNat = s.tail.toNat ∧
    (s.readReg 0x14).toNat = s.wcount.toNat ∧
    s.readReg 0x1C ++ s.readReg 0x18 = s.din ∧ s.readReg 0x24 ++ s.readReg 0x20 = s.dout ∧
    (∀ off ∈ [0x28, 0x2C, 0x30, 0x34, 0x38, 0x3C], s.readReg off = 0#32)

/-- R35, R22, R132: CODE is in STATUS[3:0], MODE in STATUS[5:4], bits 31:6 read 0; CODE is never 10 to 15 and MODE
never 3 (log 16). -/
def Obligations.StatusRegisterLayout : Prop :=
  ∀ s : State, s.status.extractLsb' 0 4 = s.code.bits ∧ s.status.extractLsb' 4 2 = s.mode.bits ∧
    s.status.extractLsb' 6 26 = 0#26 ∧ s.code.bits ≤ 9#4 ∧ s.mode.bits ≠ 3#2

/-- R45, R46, R48, R49: a write to DIN_LO or DIN_HI changes that half of DIN alone; a write to any other offset but
CMD changes nothing. -/
def Obligations.WritesChangeOnlyDinHalves : Prop :=
  ∀ (s : State) (off : Nat) (v : Word32) (rest : List Input),
    s.inputs = .access ⟨.host, .write, 32, s.cfg.base + off, v⟩ :: rest → s.rst = false → off < 0x40 → off % 4 = 0 →
    off ≠ 0x08 →
    ∃ t, step s = .next t ∧ t = { s with inputs := rest, log := s.log ++ [.ack], din := t.din } ∧
      loHalf t.din = (if off = 0x18 then v else loHalf s.din) ∧
      hiHalf t.din = (if off = 0x1C then v else hiHalf s.din)

/-- R44, R136: an access that is not 32 bits wide or not aligned gets a bus error: nothing changes, no command runs,
a read returns 0 with the error, and the run has a fault recorded. That the run goes on is the model's choice
(log 6). -/
def Obligations.BusErrorChangesNothing : Prop :=
  ∀ (s : State) (d : Dir) (bits off : Nat) (v : Word32) (rest : List Input),
    s.inputs = .access ⟨.host, d, bits, s.cfg.base + off, v⟩ :: rest → s.rst = false → off < 0x40 →
    (bits ≠ 32 ∨ off % 4 ≠ 0) →
    ∃ t r, step s = .next t ∧ t = { s with inputs := rest, log := s.log ++ [r] } ∧
      r.isFault = true ∧ r.readValue = (match d with | .read => some 0#32 | .write => none) ∧
      t.faultRecorded = true

/-- R41, R54, R151: the model's refusals (log 7, log 8, log 9): an address outside the window; another master; an
access while `rst` is asserted. -/
def Obligations.AccessesOutsideTheContractRefused : Prop :=
  ∀ (s : State) (a : Access) (rest : List Input), s.inputs = .access a :: rest →
    (¬(s.cfg.base ≤ a.addr ∧ a.addr < s.cfg.base + 0x40) → step s = .refused .outsideWindow) ∧
    (s.cfg.base ≤ a.addr → a.addr < s.cfg.base + 0x40 →
      (a.master = .other → step s = .refused .secondHost) ∧
      (a.master = .host → s.rst = true → step s = .refused .accessInReset))

/-! ### Reset -/

/-- R39: the values the spec gives the registers after reset, in every configuration, and PARAM = N_MAX. The arrays'
reset contents are the model's choice (log 3) and no part of this. -/
def Obligations.ResetRegisterValues : Prop :=
  ∀ c : Config, let s := State.resetWith c
    s.mode = .unconfigured ∧ s.cap = 0#16 ∧ s.tail = 0#16 ∧ s.wcount = 0#16 ∧ s.din = 0x0000000000000000#64 ∧
    s.dout = 0x0000000000000000#64 ∧ s.code = .ok ∧ s.code.bits = 0#4 ∧
    (∀ off, s.readReg off = if off = 0x00 then c.nMax.setWidth 32 else 0#32)

/-- R151, R39: asserting and deasserting `rst` brings any state to the reset state of its configuration (arrays: log 3;
reset values already while asserted: log 11); the host's record and further interactions stay. -/
def Obligations.RstPulseGivesResetState : Prop :=
  ∀ (s : State) (rest : List Input), s.inputs = .rst true :: .rst false :: rest →
    ∃ t, step s = .next t ∧ t.rst = true ∧
      step t = .next { State.resetWith s.cfg with inputs := rest, log := s.log }

/-- R152: a command cut by reset leaves the reset state, with `rst` asserted, and its access gets no response (the
record of that, and the arrays' values, are the model's: log 10, log 3). -/
def Obligations.ResetAbandonsTheCommand : Prop :=
  ∀ (s : State) (w : Word32) (rest : List Input),
    s.inputs = .cutAccess ⟨.host, .write, 32, s.cfg.base + 0x08, w⟩ :: rest → s.rst = false →
    step s = .next { State.resetWith s.cfg with rst := true, inputs := rest, log := s.log ++ [.noResponse] }

/-- R146: after a power-down, which comes between accesses (log 18), the state is the reset state (log 12; arrays:
log 3). -/
def Obligations.PowerDownGivesResetState : Prop :=
  ∀ (s : State) (rest : List Input), s.inputs = .powerDown :: rest →
    step s = .next { State.resetWith s.cfg with rst := s.rst, inputs := rest, log := s.log }

/-! ### Invariants and whole-machine rules -/

/-- R21, R39, R161: the invariants and the launch premises of a run hold after reset, in every admissible
configuration. -/
def Obligations.ResetMeetsInvariants : Prop :=
  ∀ c : Config, c.wf = true →
    (State.resetWith c).Inv ∧ (State.resetWith c).rst = false ∧ (State.resetWith c).faultRecorded = false

/-- R21 (a) to (d), the arrays' canonical form (log 4) and the reset values under `rst` (log 11): every step keeps
them. -/
def Obligations.StepKeepsInvariants : Prop := ∀ s t : State, s.Inv → step s = .next t → t.Inv

/-- R51: no command's element access is out of range: from a state that meets R21 every command word completes. -/
def Obligations.EveryCommandWordCompletes : Prop := ∀ (s : State) (w : Word32), s.Inv → ∃ t, runCommand w s = .next t

/-- From a state that meets R21, no step ends in a fault, and every interaction the model admits is answered with a
next state. From the spec: no command's element access is out of range (R51), and the host's accesses and `rst` are
interactions of R162. The model's choices: a narrow or misaligned access is recorded as a fault of the run, and the run
goes on (log 6; R44 and 95 P3 let a model stop there); so with an access that `rst` cuts (log 10; R152, 93 S6); a
power-down, which R162's table does not list, is served between accesses (log 12, log 18; R146); with no interaction
the step idles (log 1); the accesses left out are those the model refuses (log 7, log 8, log 9). -/
def Obligations.AdmittedInteractionsAreServed : Prop :=
  ∀ (s : State), s.Inv →
    (∀ f, step s ≠ .fault f) ∧
    (∀ input rest, s.inputs = input :: rest →
      (∀ a, input = .access a ∨ input = .cutAccess a →
        a.master = .host ∧ s.cfg.base ≤ a.addr ∧ a.addr < s.cfg.base + 0x40 ∧ s.rst = false) →
      ∃ t, step s = .next t)

/-- R131: a command that ends with a code other than OK has changed no other element. -/
def Obligations.FailedCommandChangesOnlyCode : Prop :=
  ∀ (s t : State) (w : Word32), runCommand w s = .next t → t.code ≠ .ok → t = { s with code := t.code }

/-- R133: the mode table. Where it names a code, the command reports that code; where it says exec, the command
completes with its argument checks' first code or OK, never a mode code. -/
def Obligations.ModeAdmissionTable : Prop :=
  ∀ (i : Instr) (s : State), s.Inv →
    (∀ c, admission i s.mode = some c → Reports s c (exec i s)) ∧
    (admission i s.mode = none →
      ∃ t, exec i s = .next t ∧ t.code = firstError (argumentErrors i s) ∧ t.code ≠ .notConfigured ∧ t.code ≠ .modeError)

/-- R134: the code reported is the first in the order ILLEGAL_COMMAND, NOT_CONFIGURED, MODE_ERROR, argument
checks. -/
def Obligations.ErrorPriority : Prop :=
  ∀ (w : Word32) (s : State), s.Inv →
    (illegalWord w → Reports s .illegalCommand (runCommand w s)) ∧
    (∀ i, decode w = .ok i → ∃ t, runCommand w s = .next t ∧ t.code = expectedCode i s)

/-- R27, R29, R30, R31, R22, R23, R24: which commands write which element, in every state. -/
def Obligations.WritersOfEachElement : Prop :=
  ∀ (i : Instr) (s t : State), exec i s = .next t →
    t.din = s.din ∧ t.cfg = s.cfg ∧ t.rst = s.rst ∧ t.inputs = s.inputs ∧ t.log = s.log ∧
    (t.wts ≠ s.wts → (∃ n, i = .firinit n) ∧ t.code = .ok) ∧
    (t.wstage ≠ s.wstage → i = .wload ∧ t.code = .ok) ∧
    (t.wcount ≠ s.wcount → (i = .wclr ∨ i = .wload) ∧ t.code = .ok) ∧
    (t.dout ≠ s.dout →
      (i = .rblen ∨ (∃ n, i = .rbget n) ∨ i = .rbpush ∨ (∃ n, i = .rbpeek n) ∨ i = .firsize ∨ i = .filter) ∧
        t.code = .ok) ∧
    (t.cap ≠ s.cap ∨ t.mode ≠ s.mode → ((∃ n, i = .rbinit n) ∨ ∃ n, i = .firinit n) ∧ t.code = .ok) ∧
    (t.tail ≠ s.tail ∨ t.stor ≠ s.stor →
      ((∃ n, i = .rbinit n) ∨ (∃ n, i = .firinit n) ∨ i = .rbpush ∨ i = .filter) ∧ t.code = .ok) ∧
    (t.mode = .unconfigured → s.mode = .unconfigured)

/-- R93: only RBPUSH in RING mode and FILTER in FIR mode change the contents or TAIL of an existing object; each
writes exactly one slot and advances TAIL by one position mod CAP. -/
def Obligations.OnlyPushAndFilterMutate : Prop :=
  ∀ (i : Instr) (s t : State), s.Inv → s.mode ≠ .unconfigured → exec i s = .next t →
    (∀ n, i ≠ .rbinit n) → (∀ n, i ≠ .firinit n) →
    t.cap = s.cap ∧ t.mode = s.mode ∧
    ((t.stor = s.stor ∧ t.tail = s.tail) ∨
      ((i = .rbpush ∧ s.mode = .ring ∨ i = .filter ∧ s.mode = .fir) ∧
        t.tail.toNat = (s.tail.toNat + 1) % s.cap.toNat ∧
        t.stor.read t.tail.toNat = s.din ∧ ∀ p, p ≠ t.tail.toNat → t.stor.read p = s.stor.read p))

/-- R21 (f), R22: CAP and MODE change only on a successful RBINIT or FIRINIT, or on reset (log 12: power-down is a
reset; log 10: so is an access cut by reset). -/
def Obligations.CapChangesOnlyOnConstructionOrReset : Prop :=
  ∀ s t : State, step s = .next t → t.cap ≠ s.cap ∨ t.mode ≠ s.mode →
    (t.mode = .unconfigured ∧ ∃ input rest, s.inputs = input :: rest ∧ ∀ a, input ≠ .access a) ∨
    (t.code = .ok ∧ ∃ a rest n, s.inputs = .access a :: rest ∧ a.dir = .write ∧ a.addr = s.cfg.base + 0x08 ∧
      (decode a.wdata = .ok (.rbinit n) ∨ decode a.wdata = .ok (.firinit n)))

/-- R38: the hidden positions of Stor, Wts and WStage are never observable: two states that differ only there answer
every step alike, and go on differing only there. -/
def Obligations.HiddenStateIsUnobservable : Prop :=
  ∀ s t : State, s.Inv → t.Inv → SameVisible s t →
    (∀ s', step s = .next s' → ∃ t', step t = .next t' ∧ SameVisible s' t') ∧
    (∀ r, step s = .refused r → step t = .refused r)

/-! ### Ring-buffer commands -/

/-- R82: RBINIT. -/
def Obligations.RbinitBuildsRingBuffer : Prop :=
  ∀ s : State,
    (∀ w, opOf w = 0x01#8 →
      (rsvdOf w = 0x00#8 → runCommand w s = exec (.rbinit (argOf w)) s) ∧
      (rsvdOf w ≠ 0x00#8 → Reports s .illegalCommand (runCommand w s))) ∧
    Reports s .invalidCapacity (exec (.rbinit 0#16) s) ∧
    (∀ n, n ≠ 0#16 → s.cfg.nMax < n → Reports s .capacityTooLarge (exec (.rbinit n) s)) ∧
    (∀ n, n ≠ 0#16 → n ≤ s.cfg.nMax →
      ∃ t, exec (.rbinit n) s = .next t ∧
        t = { s with mode := .ring, cap := n, tail := t.tail, stor := t.stor, code := .ok } ∧
        t.tail.toNat = n.toNat - 1 ∧
        ∀ p, t.stor.read p = if p < n.toNat then s.din else s.stor.read p)

/-- R83: what a host sees after a successful RBINIT, and when RBINIT fails. -/
def Obligations.RbinitThenReadBack : Prop :=
  ∀ s : State, s.Inv →
    (∀ n, 1#16 ≤ n → n ≤ s.cfg.nMax →
      ∃ t, exec (.rbinit n) s = .next t ∧ t.code = .ok ∧
        (∃ u, exec .rblen t = .next u ∧ u.dout.toNat = n.toNat) ∧
        (∀ i, ∃ u, exec (.rbget i) t = .next u ∧ u.dout = s.din) ∧
        (∀ v, ∃ u, exec .rbpush { t with din := v } = .next u ∧ u.tail = 0#16 ∧ u.stor.read 0 = v ∧
          ∀ p, p ≠ 0 → u.stor.read p = t.stor.read p)) ∧
    (∀ n, s.cfg.nMax < n → ∃ c, c ≠ .ok ∧ Reports s c (exec (.rbinit n) s)) ∧
    (∀ v, ∃ c, c ≠ .ok ∧ Reports { s with din := v } c (exec (.rbinit 0#16) { s with din := v }))

/-- R84: RBLEN. -/
def Obligations.RblenReturnsCapacity : Prop :=
  ∀ s : State,
    (runCommand 0x02000000#32 s = exec .rblen s) ∧
    (∀ w, opOf w = 0x02#8 → w ≠ 0x02000000#32 → Reports s .illegalCommand (runCommand w s)) ∧
    (s.mode = .unconfigured → Reports s .notConfigured (exec .rblen s)) ∧
    (s.mode ≠ .unconfigured →
      ∃ t, exec .rblen s = .next t ∧ t = { s with dout := t.dout, code := .ok } ∧ t.dout.toNat = s.cap.toNat ∧
        t.dout.toNat = (s.readReg 0x0C).toNat) ∧
    (s.mode = .fir → exec .rblen s = exec .firsize s)

/-- R86: RBGET. -/
def Obligations.RbgetReadsLogicalIndex : Prop :=
  ∀ s : State, s.Inv →
    (∀ w, opOf w = 0x03#8 →
      (rsvdOf w = 0x00#8 → runCommand w s = exec (.rbget (argOf w)) s) ∧
      (rsvdOf w ≠ 0x00#8 → Reports s .illegalCommand (runCommand w s))) ∧
    (s.mode = .unconfigured → ∀ i, Reports s .notConfigured (exec (.rbget i) s)) ∧
    (s.mode ≠ .unconfigured → ∀ i,
      exec (.rbget i) s =
        .next { s with dout := s.stor.read ((s.tail.toNat + 1 + i.toNat) % s.cap.toNat), code := .ok })

/-- R86, corner cases, and R25: an index wraps mod CAP, and logical index CAP-1 is the slot at TAIL. -/
def Obligations.RbgetWrapsAndEndsAtTail : Prop :=
  ∀ s : State, s.Inv → s.mode ≠ .unconfigured →
    (∀ i, exec (.rbget i) s = exec (.rbget (i % s.cap)) s) ∧
    exec (.rbget (s.cap - 1#16)) s = .next { s with dout := s.stor.read s.tail.toNat, code := .ok }

/-- R87: RBGET writes DOUT and CODE alone, and a repeated RBGET #i with no RBPUSH, FILTER, RBINIT or FIRINIT in between
returns the same value. -/
def Obligations.RbgetRepeatsItsValue : Prop :=
  ∀ (s t u : State) (i : Word16) (between : List Instr), s.Inv → s.mode ≠ .unconfigured →
    exec (.rbget i) s = .next t → (between.all fun j => !changesObject j) = true → issue between t = some u →
    t = { s with dout := t.dout, code := .ok } ∧
    ∃ v, exec (.rbget i) u = .next v ∧ v.dout = t.dout ∧ v.code = t.code

/-- R88: RBPUSH. -/
def Obligations.RbpushEvictsTheOldest : Prop :=
  ∀ s : State, s.Inv →
    (runCommand 0x04000000#32 s = exec .rbpush s) ∧
    (∀ w, opOf w = 0x04#8 → w ≠ 0x04000000#32 → Reports s .illegalCommand (runCommand w s)) ∧
    (s.mode = .unconfigured → Reports s .notConfigured (exec .rbpush s)) ∧
    (s.mode = .fir → Reports s .modeError (exec .rbpush s)) ∧
    (s.mode = .ring →
      ∃ t, exec .rbpush s = .next t ∧
        t = { s with stor := t.stor, tail := t.tail, dout := t.dout, code := .ok } ∧
        t.tail.toNat = (s.tail.toNat + 1) % s.cap.toNat ∧
        t.dout = s.stor.read ((s.tail.toNat + 1) % s.cap.toNat) ∧
        ∀ p, t.stor.read p = if p = (s.tail.toNat + 1) % s.cap.toNat then s.din else s.stor.read p)

/-- R89 (a), (b), (d): a push returns what RBGET #0 would have, shifts the logical contents by one, and puts its
value last. -/
def Obligations.PushShiftsTheLogicalContents : Prop :=
  ∀ s : State, s.Inv → s.mode = .ring →
    ∃ t, exec .rbpush s = .next t ∧ t.dout :: t.logical = s.logical ++ [s.din] ∧
      ∃ u, exec (.rbget 0#16) s = .next u ∧ u.dout = t.dout

/-- R89 (c), (d), R93: any number of pushes: what comes out, then what is left, is what was in, then what went in;
TAIL has advanced once for each push. With as many pushes as slots, the contents are the values pushed. -/
def Obligations.PushesAreFifo : Prop :=
  ∀ (s : State) (xs : List Word64), s.Inv → s.mode = .ring →
    ∃ ys u, feed .rbpush xs s = some (ys, u) ∧ ys.length = xs.length ∧ ys ++ u.logical = s.logical ++ xs ∧
      u.mode = .ring ∧ u.cap = s.cap ∧ u.tail.toNat = (s.tail.toNat + xs.length) % s.cap.toNat ∧
      (xs.length = s.cap.toNat → ys = s.logical ∧ u.logical = xs)

/-- R90: RBPEEK. -/
def Obligations.RbpeekReadsPhysicalIndex : Prop :=
  ∀ s : State, s.Inv →
    (∀ w, opOf w = 0x05#8 →
      (rsvdOf w = 0x00#8 → runCommand w s = exec (.rbpeek (argOf w)) s) ∧
      (rsvdOf w ≠ 0x00#8 → Reports s .illegalCommand (runCommand w s))) ∧
    (s.mode = .unconfigured → ∀ p, Reports s .notConfigured (exec (.rbpeek p) s)) ∧
    (s.mode ≠ .unconfigured → ∀ p, s.cap ≤ p → Reports s .indexOutOfRange (exec (.rbpeek p) s)) ∧
    (s.mode ≠ .unconfigured → ∀ p, p < s.cap →
      exec (.rbpeek p) s = .next { s with dout := s.stor.read p.toNat, code := .ok })

/-- R91: RBGET #i and RBPEEK #phys(i) return the same element. -/
def Obligations.PeekAtPhysEqualsGet : Prop :=
  ∀ (s : State) (i : Word16), s.Inv → s.mode ≠ .unconfigured →
    ∃ t, exec (.rbget i) s = .next t ∧ exec (.rbpeek (BitVec.ofNat 16 (s.phys i.toNat))) s = .next t

/-! ### FIR filter commands -/

/-- R102: WCLR. -/
def Obligations.WclrEmptiesTheStaging : Prop :=
  ∀ s : State,
    (runCommand 0x10000000#32 s = exec .wclr s) ∧
    (∀ w, opOf w = 0x10#8 → w ≠ 0x10000000#32 → Reports s .illegalCommand (runCommand w s)) ∧
    exec .wclr s = .next { s with wcount := 0#16, code := .ok }

/-- R104: WLOAD. -/
def Obligations.WloadAppendsAWeight : Prop :=
  ∀ s : State, s.Inv →
    (runCommand 0x11000000#32 s = exec .wload s) ∧
    (∀ w, opOf w = 0x11#8 → w ≠ 0x11000000#32 → Reports s .illegalCommand (runCommand w s)) ∧
    (s.wcount = s.cfg.nMax → Reports s .stagingFull (exec .wload s)) ∧
    (s.wcount ≠ s.cfg.nMax →
      ∃ t, exec .wload s = .next t ∧ t = { s with wstage := t.wstage, wcount := t.wcount, code := .ok } ∧
        t.wcount.toNat = s.wcount.toNat + 1 ∧
        ∀ p, t.wstage.read p = if p = s.wcount.toNat then s.din else s.wstage.read p)

/-- R105: WCLR and then k WLOADs stage the k weights in load order. -/
def Obligations.LoadsStageTheVector : Prop :=
  ∀ (s : State) (ws : List Word64), s.Inv → ws.length ≤ s.cfg.nMax.toNat →
    ∃ c ys u, exec .wclr s = .next c ∧ feed .wload ws c = some (ys, u) ∧ u.code = .ok ∧
      u.wcount.toNat = ws.length ∧ ∀ j (h : j < ws.length), u.wstage.read j = ws[j]

/-- R106: FIRINIT. -/
def Obligations.FirinitBuildsFilter : Prop :=
  ∀ s : State,
    (∀ w, opOf w = 0x12#8 →
      (rsvdOf w = 0x00#8 → runCommand w s = exec (.firinit (argOf w)) s) ∧
      (rsvdOf w ≠ 0x00#8 → Reports s .illegalCommand (runCommand w s))) ∧
    Reports s .invalidSize (exec (.firinit 0#16) s) ∧
    (∀ n, n ≠ 0#16 → s.cfg.nMax < n → Reports s .capacityTooLarge (exec (.firinit n) s)) ∧
    (∀ n, n ≠ 0#16 → n ≤ s.cfg.nMax → s.wcount ≠ n → Reports s .weightLengthMismatch (exec (.firinit n) s)) ∧
    (∀ n, n ≠ 0#16 → n ≤ s.cfg.nMax → s.wcount = n →
      ∃ t, exec (.firinit n) s = .next t ∧
        t = { s with mode := .fir, cap := n, tail := t.tail, stor := t.stor, wts := t.wts, code := .ok } ∧
        t.tail.toNat = n.toNat - 1 ∧
        (∀ p, t.stor.read p = if p < n.toNat then 0x0000000000000000#64 else s.stor.read p) ∧
        (∀ p, t.wts.read p = if p < n.toNat then s.wstage.read p else s.wts.read p))

/-- R103: no command but WCLR and WLOAD changes the staging, so a filter can be rebuilt from it. -/
def Obligations.StagingSurvives : Prop :=
  (∀ (i : Instr) (s t : State), i ≠ .wclr → i ≠ .wload → exec i s = .next t →
    t.wstage = s.wstage ∧ t.wcount = s.wcount) ∧
  (∀ (n : Word16) (s t : State), exec (.firinit n) s = .next t → t.code = .ok →
    ∃ u, exec (.firinit t.wcount) t = .next u ∧ u.code = .ok ∧ u.mode = .fir ∧ u.cap = t.cap ∧
      u.weights = t.weights ∧ u.logical = List.replicate u.cap.toNat 0x0000000000000000#64)

/-- R107: the source's mismatch property (seven weights, size 10), the zero size, and the zeroed delay line. -/
def Obligations.FirinitRejectsMismatch : Prop :=
  ∀ s : State, s.Inv →
    (s.wcount = 7#16 → 10#16 ≤ s.cfg.nMax → Reports s .weightLengthMismatch (exec (.firinit 10#16) s)) ∧
    (s.wcount = 7#16 → s.cfg.nMax < 10#16 → Reports s .capacityTooLarge (exec (.firinit 10#16) s)) ∧
    Reports s .invalidSize (exec (.firinit 0#16) s) ∧
    (∀ n t, exec (.firinit n) s = .next t → t.code = .ok →
      t.logical = List.replicate n.toNat 0x0000000000000000#64) ∧
    Code.weightLengthMismatch.bits = 3#4

/-- R108: FIRSIZE. -/
def Obligations.FirsizeReturnsSize : Prop :=
  ∀ s : State,
    (runCommand 0x13000000#32 s = exec .firsize s) ∧
    (∀ w, opOf w = 0x13#8 → w ≠ 0x13000000#32 → Reports s .illegalCommand (runCommand w s)) ∧
    (s.mode = .unconfigured → Reports s .notConfigured (exec .firsize s)) ∧
    (s.mode = .ring → Reports s .modeError (exec .firsize s)) ∧
    (s.mode = .fir →
      ∃ t, exec .firsize s = .next t ∧ t = { s with dout := t.dout, code := .ok } ∧ t.dout.toNat = s.cap.toNat ∧
        t.dout.toNat = s.weights.length ∧ exec .rblen s = .next t)

/-- R110: FILTER. -/
def Obligations.FilterPushesAndConvolves : Prop :=
  ∀ s : State, s.Inv →
    (runCommand 0x14000000#32 s = exec .filter s) ∧
    (∀ w, opOf w = 0x14#8 → w ≠ 0x14000000#32 → Reports s .illegalCommand (runCommand w s)) ∧
    (s.mode = .unconfigured → Reports s .notConfigured (exec .filter s)) ∧
    (s.mode = .ring → Reports s .modeError (exec .filter s)) ∧
    (s.mode = .fir →
      ∃ t, exec .filter s = .next t ∧
        t = { s with stor := t.stor, tail := t.tail, dout := t.dout, code := .ok } ∧
        t.tail.toNat = (s.tail.toNat + 1) % s.cap.toNat ∧
        (∀ p, t.stor.read p = if p = (s.tail.toNat + 1) % s.cap.toNat then s.din else s.stor.read p) ∧
        t.dout = (List.range s.cap.toNat).foldl
          (fun acc i => fadd64 acc (fmul64 (s.wts.read i)
            (t.stor.read ((t.tail.toNat + 1 + i) % s.cap.toNat)))) 0x0000000000000000#64)

/-- R110, R111 (a): any number of FILTERs give the outputs of the source's filter: output k is the dot product of the
weights with the last CAP samples, the history first. -/
def Obligations.FilterRefinesConvolution : Prop :=
  ∀ (s : State) (xs : List Word64), s.Inv → s.mode = .fir →
    ∃ u, feed .filter xs s = some (firOutputs s.weights s.logical xs, u) ∧
      u.logical = (s.logical ++ xs).drop xs.length ∧ u.weights = s.weights ∧ u.mode = .fir

/-- R111 (a): the window. Two filters with the same weights give the same outputs from the CAP-th common input on,
whatever their histories, and end with the same delay line. -/
def Obligations.OutputDependsOnTheWindow : Prop :=
  ∀ (s t : State) (xs ys zs : List Word64) (u v : State), s.Inv → t.Inv → s.mode = .fir → t.mode = .fir →
    s.weights = t.weights → s.cap.toNat ≤ xs.length →
    feed .filter xs s = some (ys, u) → feed .filter xs t = some (zs, v) →
    ys.drop (s.cap.toNat - 1) = zs.drop (s.cap.toNat - 1) ∧ u.logical = v.logical

/-- R111 (b): the impulse response of a fresh filter with finite weights is the weight vector reversed, a weight of
-0.0 coming out as +0.0, then +0.0 for ever. -/
def Obligations.ImpulseResponseIsReversedWeights : Prop :=
  ∀ (s : State) (k : Nat), s.Inv → s.mode = .fir → s.logical = List.replicate s.cap.toNat 0x0000000000000000#64 →
    (∀ w ∈ s.weights, isFinite w = true) →
    ∃ u, feed .filter (0x3FF0000000000000#64 :: List.replicate (s.cap.toNat - 1 + k) 0x0000000000000000#64) s =
      some ((s.weights.reverse.map fun w => if w = 0x8000000000000000#64 then 0x0000000000000000#64 else w) ++
        List.replicate k 0x0000000000000000#64, u)

/-- R111 (d): no output is -0.0. -/
def Obligations.FilterOutputIsNeverMinusZero : Prop :=
  ∀ s t : State, s.Inv → s.mode = .fir → exec .filter s = .next t → t.dout ≠ 0x8000000000000000#64

/-- R111 (e): a NaN product makes the output the canonical NaN. -/
def Obligations.FilterNanIsCanonical : Prop :=
  ∀ s t : State, s.Inv → s.mode = .fir → exec .filter s = .next t →
    (∃ wd ∈ s.weights.zip t.logical, isNaN (fmul64 wd.1 wd.2) = true) → t.dout = 0x7FF8000000000000#64

/-! ### The MAC arithmetic -/

/-- R115: every NaN result is the canonical quiet NaN, and a NaN operand gives it. -/
def Obligations.NanResultsAreCanonical : Prop :=
  ∀ a b : Word64,
    (isNaN (fmul64 a b) = true → fmul64 a b = 0x7FF8000000000000#64) ∧
    (isNaN (fadd64 a b) = true → fadd64 a b = 0x7FF8000000000000#64) ∧
    (isNaN a = true ∨ isNaN b = true → fmul64 a b = 0x7FF8000000000000#64 ∧ fadd64 a b = 0x7FF8000000000000#64)

/-- R112: sign and special cases of the product. -/
def Obligations.ProductSignAndSpecialCases : Prop :=
  ∀ a b : Word64,
    fmul64 a b = fmul64 b a ∧
    (isNaN (fmul64 a b) = false → isNeg (fmul64 a b) = (isNeg a ^^ isNeg b)) ∧
    (isInf a = true → isZero b = true → isNaN (fmul64 a b) = true) ∧
    (isInf a = true → isNaN b = false → isZero b = false → isInf (fmul64 a b) = true) ∧
    (isFinite a = true → isFinite b = true → isNaN (fmul64 a b) = false)

/-- R113: special cases of the sum. -/
def Obligations.SumSpecialCases : Prop :=
  (∀ a b : Word64, fadd64 a b = fadd64 b a) ∧
  (∀ x : Word64, isFinite x = true → isZero x = false →
    fadd64 x (x ^^^ 0x8000000000000000#64) = 0x0000000000000000#64) ∧
  fadd64 0x0000000000000000#64 0x8000000000000000#64 = 0x0000000000000000#64 ∧
  fadd64 0x8000000000000000#64 0x8000000000000000#64 = 0x8000000000000000#64 ∧
  fadd64 0x7FF0000000000000#64 0xFFF0000000000000#64 = 0x7FF8000000000000#64 ∧
  (∀ a b : Word64, isInf a = true → isFinite b = true → fadd64 a b = a) ∧
  (∀ a : Word64, isFinite a = true → a ≠ 0x8000000000000000#64 → fadd64 0x0000000000000000#64 a = a)

/-- R113, R114: a finite sum of finite values is the binary64 value nearest to the exact sum, with an even last bit
where another is as near; the sum is infinite, with the exact sum's sign, exactly from the rounding threshold on.
The layout of binary64 is the spec's general knowledge (log 15). -/
def Obligations.SumIsCorrectlyRounded : Prop :=
  ∀ a b : Word64, isFinite a = true → isFinite b = true →
    let x : Int := signedUnits a + signedUnits b
    let r := fadd64 a b
    (isFinite r = true → ∀ c : Word64, isFinite c = true →
      |signedUnits r - x| ≤ |signedUnits c - x| ∧
      (|signedUnits r - x| = |signedUnits c - x| → signedUnits c ≠ signedUnits r → r.getLsbD 0 = false)) ∧
    (isFinite r = false ↔ (2 ^ 2098 - 2 ^ 2044 : Int) ≤ |x|) ∧
    (isFinite r = false → isInf r = true ∧ isNeg r = decide (x < 0))

/-- R112, R114: the same for the product, whose exact value is a whole number of units of 2^-2148.
The layout of binary64 is the spec's general knowledge (log 15). -/
def Obligations.ProductIsCorrectlyRounded : Prop :=
  ∀ a b : Word64, isFinite a = true → isFinite b = true →
    let x : Int := signedUnits a * signedUnits b
    let r := fmul64 a b
    (isFinite r = true → ∀ c : Word64, isFinite c = true →
      |signedUnits r * 2 ^ 1074 - x| ≤ |signedUnits c * 2 ^ 1074 - x| ∧
      (|signedUnits r * 2 ^ 1074 - x| = |signedUnits c * 2 ^ 1074 - x| → signedUnits c ≠ signedUnits r →
        r.getLsbD 0 = false)) ∧
    (isFinite r = false ↔ ((2 ^ 2098 - 2 ^ 2044) * 2 ^ 1074 : Int) ≤ |x|) ∧
    (isFinite r = false → isInf r = true)
end

