-- ==== Sys2Proof/Laws/PerInstr.lean ====
section
/-! SUPPORT. Per-instruction facts about commands as syntax: the three fields of an encoded command (R60, R63). -/

namespace Sys2Proof.Laws.EncodedFields

/-- The OP column of R63. -/
def op : Instr → BitVec 8
  | .rbinit _ => 0x01#8
  | .rblen => 0x02#8
  | .rbget _ => 0x03#8
  | .rbpush => 0x04#8
  | .rbpeek _ => 0x05#8
  | .wclr => 0x10#8
  | .wload => 0x11#8
  | .firinit _ => 0x12#8
  | .firsize => 0x13#8
  | .filter => 0x14#8

/-- The ARG of a command: its operand, or 0 where R62 says ARG must be 0. -/
def arg : Instr → Word16
  | .rbinit n => n
  | .rblen => 0#16
  | .rbget n => n
  | .rbpush => 0#16
  | .rbpeek n => n
  | .wclr => 0#16
  | .wload => 0#16
  | .firinit n => n
  | .firsize => 0#16
  | .filter => 0#16

/-- The fields of a command word read back as they were put in. -/
theorem commandWord_fields (o : BitVec 8) (n : Word16) :
    opOf (commandWord o n) = o ∧ rsvdOf (commandWord o n) = 0x00#8 ∧ argOf (commandWord o n) = n := by
  refine ⟨?_, ?_, ?_⟩ <;> simp only [opOf, rsvdOf, argOf, commandWord] <;> ext i hi <;>
    simp only [BitVec.getElem_extractLsb', BitVec.getLsbD_append]
  · rw [if_neg (by omega), if_neg (by omega)]
    simp only [BitVec.getLsbD_eq_getElem hi, show 24 + i - 16 - 8 = i by omega]
  · rw [if_neg (by omega), if_pos (by omega)]
    simp
  · rw [if_pos (by omega)]
    simp [BitVec.getLsbD_eq_getElem hi]

/-- The encoding of a command has its opcode in OP, 0 in RSVD and its argument in ARG. -/
def Statement (i : Instr) : Prop :=
  opOf (encode i) = op i ∧ rsvdOf (encode i) = 0x00#8 ∧ argOf (encode i) = arg i

theorem rbinit (n : Word16) : Statement (.rbinit n) := commandWord_fields _ _

theorem rblen : Statement .rblen := commandWord_fields _ _

theorem rbget (n : Word16) : Statement (.rbget n) := commandWord_fields _ _

theorem rbpush : Statement .rbpush := commandWord_fields _ _

theorem rbpeek (n : Word16) : Statement (.rbpeek n) := commandWord_fields _ _

theorem wclr : Statement .wclr := commandWord_fields _ _

theorem wload : Statement .wload := commandWord_fields _ _

theorem firinit (n : Word16) : Statement (.firinit n) := commandWord_fields _ _

theorem firsize : Statement .firsize := commandWord_fields _ _

theorem filter : Statement .filter := commandWord_fields _ _

end Sys2Proof.Laws.EncodedFields
end

