-- ==== Sys2Proof/Laws/Decode.lean ====
section
/-! SUPPORT. What the decoder's row test says of a word's fields: a word is its three fields, and a row selects it by
OP and RSVD, or by all 32 bits. -/

namespace Sys2Proof

/-- A command word is OP, RSVD and ARG (R60). -/
theorem word_eq_fields (w : Word32) : opOf w ++ rsvdOf w ++ argOf w = w := by
  ext i hi
  simp only [BitVec.getElem_append, opOf, rsvdOf, argOf, BitVec.getElem_extractLsb']
  split
  · simp [BitVec.getLsbD_eq_getElem hi]
  · split
    · simp only [show 16 + (i - 16) = i by omega, BitVec.getLsbD_eq_getElem hi]
    · simp only [show 24 + (i - 16 - 8) = i by omega, BitVec.getLsbD_eq_getElem hi]

/-- Two words with the same fields are the same word. -/
theorem word_ext {w v : Word32} (ho : opOf w = opOf v) (hr : rsvdOf w = rsvdOf v) (ha : argOf w = argOf v) : w = v := by
  rw [← word_eq_fields w, ← word_eq_fields v, ho, hr, ha]

theorem word_eq_iff {w v : Word32} : w = v ↔ opOf w = opOf v ∧ rsvdOf w = rsvdOf v ∧ argOf w = argOf v :=
  ⟨by rintro rfl; exact ⟨rfl, rfl, rfl⟩, fun h => word_ext h.1 h.2.1 h.2.2⟩

theorem fields_mask (w : Word32) :
    opOf (w &&& 0xFFFF0000#32) = opOf w ∧ rsvdOf (w &&& 0xFFFF0000#32) = rsvdOf w ∧
    argOf (w &&& 0xFFFF0000#32) = 0#16 := by
  simp only [opOf, rsvdOf, argOf, BitVec.extractLsb'_and]
  refine ⟨?_, ?_, ?_⟩
  · rw [show BitVec.extractLsb' 24 8 0xFFFF0000#32 = BitVec.allOnes 8 by decide, BitVec.and_allOnes]
  · rw [show BitVec.extractLsb' 16 8 0xFFFF0000#32 = BitVec.allOnes 8 by decide, BitVec.and_allOnes]
  · rw [show BitVec.extractLsb' 0 16 0xFFFF0000#32 = 0#16 by decide, BitVec.and_zero]

/-- A row whose mask covers OP and RSVD selects by those two fields (R63, R64). -/
theorem masked_eq_iff {w p : Word32} (hp : argOf p = 0#16) :
    w &&& 0xFFFF0000#32 = p ↔ opOf w = opOf p ∧ rsvdOf w = rsvdOf p := by
  obtain ⟨h1, h2, h3⟩ := fields_mask w
  rw [word_eq_iff, h1, h2, h3, hp]
  simp

/-- A row whose mask covers every bit selects one word (R63, R64). -/
theorem full_mask_eq (w : Word32) : w &&& 0xFFFFFFFF#32 = w := by
  rw [show 0xFFFFFFFF#32 = BitVec.allOnes 32 by decide, BitVec.and_allOnes]

/-- What each row of R63 selects, said of the fields. -/
theorem selects_iff {r : OpcodeRow} {w : Word32} :
    r.selects w = true ↔ w &&& r.mask = r.pattern := by
  simp [OpcodeRow.selects]

end Sys2Proof
end

