-- ==== Sys2Proof/Laws/Elems.lean ====
section
/-! SUPPORT. The laws of the element arrays: what a read gives after each operation, that each operation keeps the
canonical form, and that equal canonical arrays are equal data. -/

namespace Sys2Proof.Machine

/-! ### Reads -/

@[simp] theorem Elems.read_nil (p : Nat) : Elems.read [] p = 0#64 := rfl

@[simp] theorem Elems.read_cons (q : Nat) (v : Word64) (a : Elems) (p : Nat) :
    Elems.read ((q, v) :: a) p = if q = p then v else Elems.read a p := rfl

/-- Listing one element in front of an array. -/
theorem Elems.read_cell_append (q : Nat) (v : Word64) (a : Elems) (p : Nat) (h : q = p → v = 0#64 → a.read p = 0#64) :
    Elems.read (Elems.cell q v ++ a) p = if q = p then v else Elems.read a p := by
  unfold Elems.cell
  by_cases hv : v = 0#64
  · by_cases hq : q = p
    · simp [hv, hq, h hq hv]
    · simp [hv, hq]
  · simp [hv]

/-- A canonical array holds 0 below its lower bound. -/
theorem Elems.read_below_wf {size lo p : Nat} {a : Elems} (h : Elems.wfFrom size lo a = true) (hp : p < lo) :
    a.read p = 0#64 := by
  induction a generalizing lo with
  | nil => rfl
  | cons c a ih =>
    obtain ⟨q, v⟩ := c
    simp only [Elems.wfFrom, Bool.and_eq_true, decide_eq_true_eq] at h
    rw [Elems.read_cons, if_neg (by omega), ih h.2 (by omega)]

/-- A canonical array holds 0 from its size on. -/
theorem Elems.read_ge_size {size lo p : Nat} {a : Elems} (h : Elems.wfFrom size lo a = true) (hp : size ≤ p) :
    a.read p = 0#64 := by
  induction a generalizing lo with
  | nil => rfl
  | cons c a ih =>
    obtain ⟨q, v⟩ := c
    simp only [Elems.wfFrom, Bool.and_eq_true, decide_eq_true_eq] at h
    rw [Elems.read_cons, if_neg (by omega), ih h.2]

/-- A read after a write: the value written at its place, every other place alone. -/
theorem Elems.read_write {size lo : Nat} {a : Elems} (h : Elems.wfFrom size lo a = true) (p q : Nat) (v : Word64) :
    (a.write p v).read q = if q = p then v else a.read q := by
  induction a generalizing lo with
  | nil =>
    have := Elems.read_cell_append p v [] q (fun _ _ => rfl)
    simp only [List.append_nil] at this
    simp only [Elems.write, this, eq_comm (a := p)]
  | cons c a ih =>
    obtain ⟨r, w⟩ := c
    have hc := h
    simp only [Elems.wfFrom, Bool.and_eq_true, decide_eq_true_eq] at h
    simp only [Elems.write]
    split
    · rename_i hlt
      rw [Elems.read_cell_append]
      · exact if_congr eq_comm rfl rfl
      rintro rfl -
      rw [Elems.read_cons, if_neg (by omega), Elems.read_below_wf h.2 (by omega)]
    · split
      · rename_i hpr
        subst hpr
        rw [Elems.read_cell_append]
        · by_cases hq : q = p
          · rw [if_pos hq, if_pos hq.symm]
          · rw [if_neg hq, if_neg (Ne.symm hq), Elems.read_cons, if_neg (Ne.symm hq)]
        · rintro rfl -
          exact Elems.read_below_wf h.2 (by omega)
      · rename_i hpr
        rw [Elems.read_cons, Elems.read_cons, ih h.2]
        split
        · rename_i hrq
          rw [if_neg (by omega)]
        · rfl

/-- Dropping the elements below n. -/
theorem Elems.read_from (a : Elems) (n p : Nat) : (a.from n).read p = if n ≤ p then a.read p else 0#64 := by
  induction a with
  | nil => simp [Elems.from]
  | cons c a ih =>
    obtain ⟨q, v⟩ := c
    simp only [Elems.from, List.filter_cons, decide_eq_true_eq] at ih ⊢
    split
    · rw [Elems.read_cons, ih, Elems.read_cons]
      by_cases hq : q = p
      · subst hq; simp [*]
      · simp [hq]
    · rw [ih, Elems.read_cons]
      by_cases hq : q = p
      · subst hq; simp [*]
      · simp [hq]

/-- Keeping the elements below n. -/
theorem Elems.read_below (a : Elems) (n p : Nat) : (a.below n).read p = if p < n then a.read p else 0#64 := by
  induction a with
  | nil => simp [Elems.below]
  | cons c a ih =>
    obtain ⟨q, v⟩ := c
    simp only [Elems.below, List.filter_cons, decide_eq_true_eq] at ih ⊢
    split
    · rw [Elems.read_cons, ih, Elems.read_cons]
      by_cases hq : q = p
      · subst hq; simp [*]
      · simp [hq]
    · rw [ih, Elems.read_cons]
      by_cases hq : q = p
      · subst hq; simp [*]
      · simp [hq]

/-- Reading two arrays put together, the second holding 0 wherever the first may list an element. -/
theorem Elems.read_append (a b : Elems) (p : Nat) (h : b.read p = 0#64) : (a ++ b).read p = a.read p := by
  induction a with
  | nil => simpa using h
  | cons c a ih =>
    obtain ⟨q, v⟩ := c
    rw [List.cons_append, Elems.read_cons, Elems.read_cons, ih]

/-- Reading two arrays put together where the first lists nothing. -/
theorem Elems.read_append_right (a b : Elems) (p : Nat) (h : ∀ c ∈ a, c.1 ≠ p) : (a ++ b).read p = b.read p := by
  induction a with
  | nil => rfl
  | cons c a ih =>
    obtain ⟨q, v⟩ := c
    rw [List.cons_append, Elems.read_cons, if_neg (h (q, v) (by simp)), ih fun c hc => h c (by simp [hc])]

theorem Elems.mem_cell {c : Nat × Word64} {p : Nat} {v : Word64} (h : c ∈ Elems.cell p v) : c = (p, v) := by
  unfold Elems.cell at h
  split at h <;> simp_all

/-- The list part of a fill. -/
theorem Elems.read_cells (n p : Nat) (v : Word64) :
    Elems.read ((List.range n).flatMap fun p => Elems.cell p v) p = if p < n then v else 0#64 := by
  induction n with
  | zero => simp
  | succ n ih =>
    rw [List.range_succ, List.flatMap_append, List.flatMap_singleton]
    have hc : Elems.read (Elems.cell n v) p = if n = p then v else 0#64 := by
      simpa using Elems.read_cell_append n v [] p (fun _ _ => rfl)
    by_cases hp : p = n
    · subst hp
      rw [Elems.read_append_right, hc]
      · simp
      · intro c h
        simp only [List.mem_flatMap, List.mem_range] at h
        obtain ⟨r, hr, h⟩ := h
        have := Elems.mem_cell h
        subst this
        show r ≠ p
        omega
    · rw [Elems.read_append _ _ _ (by rw [hc, if_neg (by omega)]), ih]
      by_cases h : p < n
      · rw [if_pos h, if_pos (by omega)]
      · rw [if_neg h, if_neg (by omega)]

/-- `for p in 0 .. n-1 : a[p] <- v`: v below n, the rest unchanged. -/
theorem Elems.read_fill (a : Elems) (n : Nat) (v : Word64) (p : Nat) :
    (a.fill n v).read p = if p < n then v else a.read p := by
  unfold Elems.fill
  by_cases h : p < n
  · rw [Elems.read_append _ _ _ (by rw [Elems.read_from, if_neg (by omega)]), Elems.read_cells]
    simp [h]
  · rw [Elems.read_append_right, Elems.read_from, if_pos (by omega), if_neg h]
    intro c hc
    simp only [List.mem_flatMap, List.mem_range] at hc
    obtain ⟨r, hr, hc⟩ := hc
    have := Elems.mem_cell hc
    subst this
    show r ≠ p
    omega

/-- `for p in 0 .. n-1 : a[p] <- src[p]`: the source below n, the rest unchanged. -/
theorem Elems.read_copyFrom (a src : Elems) (n p : Nat) :
    (a.copyFrom src n).read p = if p < n then src.read p else a.read p := by
  unfold Elems.copyFrom
  by_cases h : p < n
  · rw [Elems.read_append _ _ _ (by rw [Elems.read_from, if_neg (by omega)]), Elems.read_below]
    simp [h]
  · rw [Elems.read_append_right, Elems.read_from, if_pos (by omega), if_neg h]
    intro c hc
    simp only [Elems.below, List.mem_filter, decide_eq_true_eq] at hc
    omega

/-! ### Canonical form -/

/-- The canonical form, said of the list: rising indices, all in range, no element 0. -/
theorem Elems.wfFrom_iff (size lo : Nat) (a : Elems) :
    Elems.wfFrom size lo a = true ↔
      a.Pairwise (fun c d => c.1 < d.1) ∧ ∀ c ∈ a, lo ≤ c.1 ∧ c.1 < size ∧ c.2 ≠ 0#64 := by
  induction a generalizing lo with
  | nil => simp [Elems.wfFrom]
  | cons c a ih =>
    obtain ⟨q, v⟩ := c
    simp only [Elems.wfFrom, Bool.and_eq_true, decide_eq_true_eq, ih, List.pairwise_cons, List.mem_cons,
      forall_eq_or_imp]
    constructor
    · rintro ⟨⟨⟨h1, h2⟩, h3⟩, h4, h5⟩
      exact ⟨⟨fun c hc => (h5 c hc).1, h4⟩, ⟨h1, h2, h3⟩, fun c hc => ⟨by have := (h5 c hc).1; omega, (h5 c hc).2⟩⟩
    · rintro ⟨⟨h1, h2⟩, ⟨h3, h4, h5⟩, h6⟩
      exact ⟨⟨⟨h3, h4⟩, h5⟩, h2, fun c hc => ⟨h1 c hc, (h6 c hc).2⟩⟩

@[simp] theorem Elems.wf_nil (size : Nat) : Elems.wf size [] = true := rfl

/-- A write in range keeps the canonical form. -/
theorem Elems.wfFrom_write {size lo p : Nat} {a : Elems} (v : Word64) (h : Elems.wfFrom size lo a = true)
    (hlo : lo ≤ p) (hp : p < size) : Elems.wfFrom size lo (a.write p v) = true := by
  induction a generalizing lo with
  | nil => by_cases hv : v = 0#64 <;> simp [Elems.write, Elems.cell, Elems.wfFrom, hv, hlo, hp]
  | cons c a ih =>
    obtain ⟨q, w⟩ := c
    simp only [Elems.wfFrom, Bool.and_eq_true, decide_eq_true_eq] at h
    simp only [Elems.write]
    split
    · by_cases hv : v = 0#64
      · simp [Elems.cell, hv, Elems.wfFrom, h]
      · obtain ⟨⟨⟨h1, h2⟩, h3⟩, h4⟩ := h
        simp only [Elems.cell, hv, if_false, List.cons_append, List.nil_append, Elems.wfFrom, Bool.and_eq_true,
          decide_eq_true_eq, h2, h3, h4, hlo, hp, ne_eq, not_false_eq_true, and_true, true_and]
        omega
    · split
      · rename_i hpq
        subst hpq
        by_cases hv : v = 0#64
        · simp only [Elems.cell, hv, if_true, List.nil_append]
          have := (Elems.wfFrom_iff size (p + 1) a).1 h.2
          exact (Elems.wfFrom_iff size lo a).2 ⟨this.1, fun c hc => ⟨by have := (this.2 c hc).1; omega, (this.2 c hc).2⟩⟩
        · simp [Elems.cell, hv, Elems.wfFrom, hlo, h]
      · simp only [Elems.wfFrom, Bool.and_eq_true, decide_eq_true_eq]
        exact ⟨h.1, ih h.2 (by omega)⟩

theorem Elems.wf_write {size p : Nat} {a : Elems} (v : Word64) (h : a.wf size = true) (hp : p < size) :
    (a.write p v).wf size = true := Elems.wfFrom_write v h (Nat.zero_le p) hp

/-- Two canonical arrays, the first below n and the second from n on, make a canonical array. -/
theorem Elems.wf_append_from {size n : Nat} {a b : Elems} (ha : a.Pairwise fun c d => c.1 < d.1)
    (ha' : ∀ c ∈ a, c.1 < n ∧ c.1 < size ∧ c.2 ≠ 0#64) (hb : b.wf size = true) : (a ++ b.from n).wf size = true := by
  have hb := (Elems.wfFrom_iff size 0 b).1 hb
  refine (Elems.wfFrom_iff size 0 _).2 ⟨List.pairwise_append.2 ⟨ha, hb.1.filter _, ?_⟩, ?_⟩
  · intro c hc d hd
    simp only [Elems.from, List.mem_filter, decide_eq_true_eq] at hd
    have := (ha' c hc).1
    omega
  · intro c hc
    rcases List.mem_append.1 hc with hc | hc
    · exact ⟨Nat.zero_le _, (ha' c hc).2⟩
    · exact hb.2 c (List.mem_filter.1 hc).1

/-- A fill within the array keeps the canonical form. -/
theorem Elems.wf_fill {size n : Nat} {a : Elems} (v : Word64) (h : a.wf size = true) (hn : n ≤ size) :
    (a.fill n v).wf size = true := by
  refine Elems.wf_append_from ?_ ?_ h
  · clear hn
    induction n with
    | zero => simp
    | succ n ih =>
      rw [List.range_succ, List.flatMap_append, List.flatMap_singleton]
      refine List.pairwise_append.2 ⟨ih, ?_, ?_⟩
      · unfold Elems.cell
        split <;> simp
      · intro c hc d hd
        simp only [List.mem_flatMap, List.mem_range] at hc
        obtain ⟨r, hr, hc⟩ := hc
        rw [Elems.mem_cell hc, Elems.mem_cell hd]
        exact hr
  · intro c hc
    simp only [List.mem_flatMap, List.mem_range, Elems.cell] at hc
    obtain ⟨r, hr, hc⟩ := hc
    split at hc
    · simp at hc
    · simp only [List.mem_singleton] at hc
      subst hc
      exact ⟨hr, by show r < size; omega, by assumption⟩

/-- A copy keeps the canonical form. -/
theorem Elems.wf_copyFrom {size : Nat} {a src : Elems} (n : Nat) (h : a.wf size = true) (hs : src.wf size = true) :
    (a.copyFrom src n).wf size = true := by
  have hs := (Elems.wfFrom_iff size 0 src).1 hs
  refine Elems.wf_append_from (hs.1.filter _) ?_ h
  intro c hc
  simp only [Elems.below, List.mem_filter, decide_eq_true_eq] at hc
  exact ⟨hc.2, (hs.2 c hc.1).2⟩

/-- Canonical arrays that read alike are the same list. -/
theorem Elems.eq_of_read_eq {size lo : Nat} {a b : Elems} (ha : Elems.wfFrom size lo a = true)
    (hb : Elems.wfFrom size lo b = true) (h : ∀ p, a.read p = b.read p) : a = b := by
  induction a generalizing b lo with
  | nil =>
    cases b with
    | nil => rfl
    | cons d b =>
      obtain ⟨q, w⟩ := d
      simp only [Elems.wfFrom, Bool.and_eq_true, decide_eq_true_eq] at hb
      have := h q
      simp only [Elems.read_nil, Elems.read_cons, if_true] at this
      exact absurd this.symm hb.1.2
  | cons c a ih =>
    obtain ⟨p, v⟩ := c
    have ha' := ha
    simp only [Elems.wfFrom, Bool.and_eq_true, decide_eq_true_eq] at ha
    cases b with
    | nil =>
      have := h p
      simp only [Elems.read_nil, Elems.read_cons, if_true] at this
      exact absurd this ha.1.2
    | cons d b =>
      obtain ⟨q, w⟩ := d
      have hb' := hb
      simp only [Elems.wfFrom, Bool.and_eq_true, decide_eq_true_eq] at hb
      have hpq : p = q := by
        rcases Nat.lt_trichotomy p q with hlt | heq | hgt
        · have h1 := h p
          simp only [Elems.read_cons, if_true, if_neg (Nat.ne_of_gt hlt)] at h1
          rw [Elems.read_below_wf hb.2 (Nat.lt_succ_of_lt hlt)] at h1
          exact absurd h1 ha.1.2
        · exact heq
        · have h1 := h q
          simp only [Elems.read_cons, if_true, if_neg (Nat.ne_of_gt hgt)] at h1
          rw [Elems.read_below_wf ha.2 (Nat.lt_succ_of_lt hgt)] at h1
          exact absurd h1.symm hb.1.2
      subst hpq
      have hvw : v = w := by simpa using h p
      subst hvw
      rw [ih ha.2 hb.2]
      intro r
      have h1 := h r
      simp only [Elems.read_cons] at h1
      by_cases hr : p = r
      · subst hr
        rw [Elems.read_below_wf ha.2 (Nat.lt_succ_self p), Elems.read_below_wf hb.2 (Nat.lt_succ_self p)]
      · simpa [hr] using h1

end Sys2Proof.Machine
end

