-- ==== Sys2Proof/Laws/State.lean ====
section
/-! SUPPORT. One lemma per field per state update: what each named update writes, and that it leaves every other
field alone. -/

namespace Sys2Proof.Machine

variable (s : State)

/-! ### complete -/

@[simp] theorem State.complete_mode (c : Code) : (s.complete c).mode = s.mode := rfl
@[simp] theorem State.complete_cap (c : Code) : (s.complete c).cap = s.cap := rfl
@[simp] theorem State.complete_tail (c : Code) : (s.complete c).tail = s.tail := rfl
@[simp] theorem State.complete_stor (c : Code) : (s.complete c).stor = s.stor := rfl
@[simp] theorem State.complete_wts (c : Code) : (s.complete c).wts = s.wts := rfl
@[simp] theorem State.complete_wstage (c : Code) : (s.complete c).wstage = s.wstage := rfl
@[simp] theorem State.complete_wcount (c : Code) : (s.complete c).wcount = s.wcount := rfl
@[simp] theorem State.complete_din (c : Code) : (s.complete c).din = s.din := rfl
@[simp] theorem State.complete_dout (c : Code) : (s.complete c).dout = s.dout := rfl
@[simp] theorem State.complete_code (c : Code) : (s.complete c).code = c := rfl
@[simp] theorem State.complete_cfg (c : Code) : (s.complete c).cfg = s.cfg := rfl
@[simp] theorem State.complete_rst (c : Code) : (s.complete c).rst = s.rst := rfl
@[simp] theorem State.complete_inputs (c : Code) : (s.complete c).inputs = s.inputs := rfl
@[simp] theorem State.complete_log (c : Code) : (s.complete c).log = s.log := rfl

/-! ### putDout -/

@[simp] theorem State.putDout_mode (v : Word64) : (s.putDout v).mode = s.mode := rfl
@[simp] theorem State.putDout_cap (v : Word64) : (s.putDout v).cap = s.cap := rfl
@[simp] theorem State.putDout_tail (v : Word64) : (s.putDout v).tail = s.tail := rfl
@[simp] theorem State.putDout_stor (v : Word64) : (s.putDout v).stor = s.stor := rfl
@[simp] theorem State.putDout_wts (v : Word64) : (s.putDout v).wts = s.wts := rfl
@[simp] theorem State.putDout_wstage (v : Word64) : (s.putDout v).wstage = s.wstage := rfl
@[simp] theorem State.putDout_wcount (v : Word64) : (s.putDout v).wcount = s.wcount := rfl
@[simp] theorem State.putDout_din (v : Word64) : (s.putDout v).din = s.din := rfl
@[simp] theorem State.putDout_dout (v : Word64) : (s.putDout v).dout = v := rfl
@[simp] theorem State.putDout_code (v : Word64) : (s.putDout v).code = s.code := rfl
@[simp] theorem State.putDout_cfg (v : Word64) : (s.putDout v).cfg = s.cfg := rfl
@[simp] theorem State.putDout_rst (v : Word64) : (s.putDout v).rst = s.rst := rfl
@[simp] theorem State.putDout_inputs (v : Word64) : (s.putDout v).inputs = s.inputs := rfl
@[simp] theorem State.putDout_log (v : Word64) : (s.putDout v).log = s.log := rfl

/-! ### setRst -/

@[simp] theorem State.setRst_mode (b : Bool) : (s.setRst b).mode = s.mode := rfl
@[simp] theorem State.setRst_cap (b : Bool) : (s.setRst b).cap = s.cap := rfl
@[simp] theorem State.setRst_tail (b : Bool) : (s.setRst b).tail = s.tail := rfl
@[simp] theorem State.setRst_stor (b : Bool) : (s.setRst b).stor = s.stor := rfl
@[simp] theorem State.setRst_wts (b : Bool) : (s.setRst b).wts = s.wts := rfl
@[simp] theorem State.setRst_wstage (b : Bool) : (s.setRst b).wstage = s.wstage := rfl
@[simp] theorem State.setRst_wcount (b : Bool) : (s.setRst b).wcount = s.wcount := rfl
@[simp] theorem State.setRst_din (b : Bool) : (s.setRst b).din = s.din := rfl
@[simp] theorem State.setRst_dout (b : Bool) : (s.setRst b).dout = s.dout := rfl
@[simp] theorem State.setRst_code (b : Bool) : (s.setRst b).code = s.code := rfl
@[simp] theorem State.setRst_cfg (b : Bool) : (s.setRst b).cfg = s.cfg := rfl
@[simp] theorem State.setRst_rst (b : Bool) : (s.setRst b).rst = b := rfl
@[simp] theorem State.setRst_inputs (b : Bool) : (s.setRst b).inputs = s.inputs := rfl
@[simp] theorem State.setRst_log (b : Bool) : (s.setRst b).log = s.log := rfl

/-! ### setInputs -/

@[simp] theorem State.setInputs_mode (l : List Input) : (s.setInputs l).mode = s.mode := rfl
@[simp] theorem State.setInputs_cap (l : List Input) : (s.setInputs l).cap = s.cap := rfl
@[simp] theorem State.setInputs_tail (l : List Input) : (s.setInputs l).tail = s.tail := rfl
@[simp] theorem State.setInputs_stor (l : List Input) : (s.setInputs l).stor = s.stor := rfl
@[simp] theorem State.setInputs_wts (l : List Input) : (s.setInputs l).wts = s.wts := rfl
@[simp] theorem State.setInputs_wstage (l : List Input) : (s.setInputs l).wstage = s.wstage := rfl
@[simp] theorem State.setInputs_wcount (l : List Input) : (s.setInputs l).wcount = s.wcount := rfl
@[simp] theorem State.setInputs_din (l : List Input) : (s.setInputs l).din = s.din := rfl
@[simp] theorem State.setInputs_dout (l : List Input) : (s.setInputs l).dout = s.dout := rfl
@[simp] theorem State.setInputs_code (l : List Input) : (s.setInputs l).code = s.code := rfl
@[simp] theorem State.setInputs_cfg (l : List Input) : (s.setInputs l).cfg = s.cfg := rfl
@[simp] theorem State.setInputs_rst (l : List Input) : (s.setInputs l).rst = s.rst := rfl
@[simp] theorem State.setInputs_inputs (l : List Input) : (s.setInputs l).inputs = l := rfl
@[simp] theorem State.setInputs_log (l : List Input) : (s.setInputs l).log = s.log := rfl

/-! ### respond -/

@[simp] theorem State.respond_mode (r : Response) : (s.respond r).mode = s.mode := rfl
@[simp] theorem State.respond_cap (r : Response) : (s.respond r).cap = s.cap := rfl
@[simp] theorem State.respond_tail (r : Response) : (s.respond r).tail = s.tail := rfl
@[simp] theorem State.respond_stor (r : Response) : (s.respond r).stor = s.stor := rfl
@[simp] theorem State.respond_wts (r : Response) : (s.respond r).wts = s.wts := rfl
@[simp] theorem State.respond_wstage (r : Response) : (s.respond r).wstage = s.wstage := rfl
@[simp] theorem State.respond_wcount (r : Response) : (s.respond r).wcount = s.wcount := rfl
@[simp] theorem State.respond_din (r : Response) : (s.respond r).din = s.din := rfl
@[simp] theorem State.respond_dout (r : Response) : (s.respond r).dout = s.dout := rfl
@[simp] theorem State.respond_code (r : Response) : (s.respond r).code = s.code := rfl
@[simp] theorem State.respond_cfg (r : Response) : (s.respond r).cfg = s.cfg := rfl
@[simp] theorem State.respond_rst (r : Response) : (s.respond r).rst = s.rst := rfl
@[simp] theorem State.respond_inputs (r : Response) : (s.respond r).inputs = s.inputs := rfl
@[simp] theorem State.respond_log (r : Response) : (s.respond r).log = s.log ++ [r] := rfl

/-! ### writeDinLo -/

@[simp] theorem State.writeDinLo_mode (v : Word32) : (s.writeDinLo v).mode = s.mode := rfl
@[simp] theorem State.writeDinLo_cap (v : Word32) : (s.writeDinLo v).cap = s.cap := rfl
@[simp] theorem State.writeDinLo_tail (v : Word32) : (s.writeDinLo v).tail = s.tail := rfl
@[simp] theorem State.writeDinLo_stor (v : Word32) : (s.writeDinLo v).stor = s.stor := rfl
@[simp] theorem State.writeDinLo_wts (v : Word32) : (s.writeDinLo v).wts = s.wts := rfl
@[simp] theorem State.writeDinLo_wstage (v : Word32) : (s.writeDinLo v).wstage = s.wstage := rfl
@[simp] theorem State.writeDinLo_wcount (v : Word32) : (s.writeDinLo v).wcount = s.wcount := rfl
@[simp] theorem State.writeDinLo_din (v : Word32) : (s.writeDinLo v).din = joinHalves (hiHalf s.din) v := rfl
@[simp] theorem State.writeDinLo_dout (v : Word32) : (s.writeDinLo v).dout = s.dout := rfl
@[simp] theorem State.writeDinLo_code (v : Word32) : (s.writeDinLo v).code = s.code := rfl
@[simp] theorem State.writeDinLo_cfg (v : Word32) : (s.writeDinLo v).cfg = s.cfg := rfl
@[simp] theorem State.writeDinLo_rst (v : Word32) : (s.writeDinLo v).rst = s.rst := rfl
@[simp] theorem State.writeDinLo_inputs (v : Word32) : (s.writeDinLo v).inputs = s.inputs := rfl
@[simp] theorem State.writeDinLo_log (v : Word32) : (s.writeDinLo v).log = s.log := rfl

/-! ### writeDinHi -/

@[simp] theorem State.writeDinHi_mode (v : Word32) : (s.writeDinHi v).mode = s.mode := rfl
@[simp] theorem State.writeDinHi_cap (v : Word32) : (s.writeDinHi v).cap = s.cap := rfl
@[simp] theorem State.writeDinHi_tail (v : Word32) : (s.writeDinHi v).tail = s.tail := rfl
@[simp] theorem State.writeDinHi_stor (v : Word32) : (s.writeDinHi v).stor = s.stor := rfl
@[simp] theorem State.writeDinHi_wts (v : Word32) : (s.writeDinHi v).wts = s.wts := rfl
@[simp] theorem State.writeDinHi_wstage (v : Word32) : (s.writeDinHi v).wstage = s.wstage := rfl
@[simp] theorem State.writeDinHi_wcount (v : Word32) : (s.writeDinHi v).wcount = s.wcount := rfl
@[simp] theorem State.writeDinHi_din (v : Word32) : (s.writeDinHi v).din = joinHalves v (loHalf s.din) := rfl
@[simp] theorem State.writeDinHi_dout (v : Word32) : (s.writeDinHi v).dout = s.dout := rfl
@[simp] theorem State.writeDinHi_code (v : Word32) : (s.writeDinHi v).code = s.code := rfl
@[simp] theorem State.writeDinHi_cfg (v : Word32) : (s.writeDinHi v).cfg = s.cfg := rfl
@[simp] theorem State.writeDinHi_rst (v : Word32) : (s.writeDinHi v).rst = s.rst := rfl
@[simp] theorem State.writeDinHi_inputs (v : Word32) : (s.writeDinHi v).inputs = s.inputs := rfl
@[simp] theorem State.writeDinHi_log (v : Word32) : (s.writeDinHi v).log = s.log := rfl

/-! ### archReset -/

@[simp] theorem State.archReset_mode : s.archReset.mode = .unconfigured := rfl
@[simp] theorem State.archReset_cap : s.archReset.cap = 0#16 := rfl
@[simp] theorem State.archReset_tail : s.archReset.tail = 0#16 := rfl
@[simp] theorem State.archReset_stor : s.archReset.stor = [] := rfl
@[simp] theorem State.archReset_wts : s.archReset.wts = [] := rfl
@[simp] theorem State.archReset_wstage : s.archReset.wstage = [] := rfl
@[simp] theorem State.archReset_wcount : s.archReset.wcount = 0#16 := rfl
@[simp] theorem State.archReset_din : s.archReset.din = 0#64 := rfl
@[simp] theorem State.archReset_dout : s.archReset.dout = 0#64 := rfl
@[simp] theorem State.archReset_code : s.archReset.code = .ok := rfl
@[simp] theorem State.archReset_cfg : s.archReset.cfg = s.cfg := rfl
@[simp] theorem State.archReset_rst : s.archReset.rst = s.rst := rfl
@[simp] theorem State.archReset_inputs : s.archReset.inputs = s.inputs := rfl
@[simp] theorem State.archReset_log : s.archReset.log = s.log := rfl

/-! ### The state after reset -/

@[simp] theorem State.resetWith_mode (c : Config) : (State.resetWith c).mode = .unconfigured := rfl
@[simp] theorem State.resetWith_cap (c : Config) : (State.resetWith c).cap = 0#16 := rfl
@[simp] theorem State.resetWith_tail (c : Config) : (State.resetWith c).tail = 0#16 := rfl
@[simp] theorem State.resetWith_stor (c : Config) : (State.resetWith c).stor = [] := rfl
@[simp] theorem State.resetWith_wts (c : Config) : (State.resetWith c).wts = [] := rfl
@[simp] theorem State.resetWith_wstage (c : Config) : (State.resetWith c).wstage = [] := rfl
@[simp] theorem State.resetWith_wcount (c : Config) : (State.resetWith c).wcount = 0#16 := rfl
@[simp] theorem State.resetWith_din (c : Config) : (State.resetWith c).din = 0#64 := rfl
@[simp] theorem State.resetWith_dout (c : Config) : (State.resetWith c).dout = 0#64 := rfl
@[simp] theorem State.resetWith_code (c : Config) : (State.resetWith c).code = .ok := rfl
@[simp] theorem State.resetWith_cfg (c : Config) : (State.resetWith c).cfg = c := rfl
@[simp] theorem State.resetWith_rst (c : Config) : (State.resetWith c).rst = false := rfl
@[simp] theorem State.resetWith_inputs (c : Config) : (State.resetWith c).inputs = [] := rfl
@[simp] theorem State.resetWith_log (c : Config) : (State.resetWith c).log = [] := rfl

end Sys2Proof.Machine
end

