-- ==== Sys2Proof/Laws/Ops.lean ====
section
/-! SUPPORT. One specification per shared operation: what it answers, and when. -/

namespace Sys2Proof.Machine

/-! ### Element primitives (R51) -/

theorem State.storRead_ok {s : State} {p : Nat} {v : Word64} :
    s.storRead p = .ok v ↔ (p < s.cap.toNat ∧ p < s.nMax) ∧ s.stor.read p = v := by
  unfold State.storRead
  split <;> simp [*]

theorem State.storWrite_ok {s t : State} {p : Nat} {v : Word64} :
    s.storWrite p v = .ok t ↔ (p < s.cap.toNat ∧ p < s.nMax) ∧ { s with stor := s.stor.write p v } = t := by
  unfold State.storWrite
  split <;> simp [*]

theorem State.wtsRead_ok {s : State} {p : Nat} {v : Word64} :
    s.wtsRead p = .ok v ↔ (s.mode = .fir ∧ p < s.cap.toNat ∧ p < s.nMax) ∧ s.wts.read p = v := by
  unfold State.wtsRead
  split <;> simp [*]

theorem State.wstageAppend_ok {s t : State} {v : Word64} :
    s.wstageAppend v = .ok t ↔ s.wcount.toNat < s.nMax ∧
      { s with wstage := s.wstage.write s.wcount.toNat v, wcount := s.wcount + 1#16 } = t := by
  unfold State.wstageAppend
  split <;> simp [*]

/-! ### Operands -/

/-- A physical index is below the capacity of an object (R80). -/
theorem State.phys_lt {s : State} (h : 0 < s.cap.toNat) (i : Nat) : s.phys i < s.cap.toNat := Nat.mod_lt _ h

/-- The push (R88): everything a push that answers does. -/
theorem State.pushSlot_ok {s t : State} {v old : Word64} :
    s.pushSlot v = .ok (old, t) ↔ (s.phys 0 < s.cap.toNat ∧ s.phys 0 < s.nMax) ∧ s.stor.read (s.phys 0) = old ∧
      { s with stor := s.stor.write (s.phys 0) v, tail := BitVec.ofNat 16 (s.phys 0) } = t := by
  unfold State.pushSlot State.storRead State.storWrite
  by_cases h : s.phys 0 < s.cap.toNat ∧ s.phys 0 < s.nMax <;> simp [h]

@[simp] theorem loHalf_joinHalves (hi lo : Word32) : loHalf (joinHalves hi lo) = lo := by
  unfold loHalf joinHalves
  ext i h
  simp only [BitVec.getElem_extractLsb', BitVec.getLsbD_append]
  rw [if_pos (by omega)]
  simp [BitVec.getLsbD_eq_getElem h]

@[simp] theorem hiHalf_joinHalves (hi lo : Word32) : hiHalf (joinHalves hi lo) = hi := by
  unfold hiHalf joinHalves
  ext i h
  simp only [BitVec.getElem_extractLsb', BitVec.getLsbD_append]
  rw [if_neg (by omega)]
  simp [BitVec.getLsbD_eq_getElem h]

/-! ### Completion and mode admission -/

@[simp] theorem completed_eq (s : State) (c : Code) : completed s c = .next { s with code := c } := rfl

@[simp] theorem execIllegal_eq (s : State) : execIllegal s = .next { s with code := .illegalCommand } := rfl

@[simp] theorem finish_ok (s : State) : finish (.ok s) = .next { s with code := .ok } := rfl

@[simp] theorem finish_error (f : Fault) : finish (.error f) = .fault f := rfl

/-- A computation that finishes in a next state answered a state, and only CODE differs from it. -/
theorem finish_next {r : Except Fault State} {t : State} :
    finish r = .next t ↔ ∃ u, r = .ok u ∧ t = { u with code := .ok } := by
  cases r with
  | error f => simp
  | ok u => simp [eq_comm]

/-- R81 for a command that needs an object. -/
theorem needObject_next {s t : State} {body : Result} :
    needObject s body = .next t ↔
      (s.mode = .unconfigured ∧ t = { s with code := .notConfigured }) ∨ (s.mode ≠ .unconfigured ∧ body = .next t) := by
  unfold needObject
  cases hm : s.mode <;> simp [hm, eq_comm]

/-- R81 for a command that needs a ring buffer. -/
theorem needRing_next {s t : State} {body : Result} :
    needRing s body = .next t ↔
      (s.mode = .unconfigured ∧ t = { s with code := .notConfigured }) ∨
      (s.mode = .fir ∧ t = { s with code := .modeError }) ∨ (s.mode = .ring ∧ body = .next t) := by
  unfold needRing
  cases hm : s.mode <;> simp [hm, eq_comm]

/-- R101 for a command that needs a filter. -/
theorem needFir_next {s t : State} {body : Result} :
    needFir s body = .next t ↔
      (s.mode = .unconfigured ∧ t = { s with code := .notConfigured }) ∨
      (s.mode = .ring ∧ t = { s with code := .modeError }) ∨ (s.mode = .fir ∧ body = .next t) := by
  unfold needFir
  cases hm : s.mode <;> simp [hm, eq_comm]

/-! ### The MAC loop (R110) -/

/-- The accumulator after n taps is the left fold of the taps in index order. -/
theorem State.macUpTo_eq {s : State} (hm : s.mode = .fir) (hn : s.cap.toNat ≤ s.nMax) {n : Nat} (h : n ≤ s.cap.toNat) :
    s.macUpTo n = .ok ((List.range n).foldl
      (fun acc i => fadd64 acc (fmul64 (s.wts.read i) (s.stor.read (s.phys i)))) 0#64) := by
  induction n with
  | zero => rfl
  | succ n ih =>
    have hp := State.phys_lt (s := s) (by omega) n
    rw [State.macUpTo, ih (by omega), List.range_succ, List.foldl_append]
    simp [Except.bind, State.macStep, State.wtsRead, State.storRead, hm, show n < s.cap.toNat by omega,
      show n < s.nMax by omega, hp, show s.phys n < s.nMax by omega]

/-! ### The invariant's first uses -/

/-- An object has at least one slot and at most N_MAX (R21 (a), (b)). -/
theorem State.Inv.cap_range {s : State} (h : s.Inv) (hm : s.mode ≠ .unconfigured) :
    0 < s.cap.toNat ∧ s.cap.toNat ≤ s.nMax := by
  have h0 : s.cap ≠ 0#16 := fun hc => hm (h.unconfiguredIff.2 hc)
  have h1 : s.cap.toNat ≠ 0 := fun hc => h0 (BitVec.eq_of_toNat_eq (by simpa using hc))
  exact ⟨by omega, BitVec.le_def.1 h.capLe⟩

/-- Every physical index of an object is in range (R51). -/
theorem State.Inv.phys_range {s : State} (h : s.Inv) (hm : s.mode ≠ .unconfigured) (i : Nat) :
    s.phys i < s.cap.toNat ∧ s.phys i < s.nMax := by
  have hc := h.cap_range hm
  have hp := State.phys_lt hc.1 i
  exact ⟨hp, by omega⟩

/-! ### The port -/

/-- Which accesses reach the core, and where (R41, R54, R151). -/
theorem admitAccess_ok {s : State} {a : Access} {off : Nat} :
    admitAccess s a = .ok off ↔
      s.cfg.base ≤ a.addr ∧ a.addr < s.cfg.base + 0x40 ∧ a.master = .host ∧ s.rst = false ∧
        off = a.addr - s.cfg.base := by
  unfold admitAccess windowOffset
  by_cases hw : s.cfg.base ≤ a.addr ∧ a.addr < s.cfg.base + 0x40
  · simp only [hw, and_self, if_true, true_and]
    cases a.master <;> cases s.rst <;> simp [eq_comm]
  · simp only [hw, if_false, reduceCtorEq, false_iff]
    tauto

/-- A register read that reaches the core (R33, R48). -/
theorem serveAccess_read {s : State} {a : Access} {off : Nat} (h : admitAccess s a = .ok off)
    (hal : aligned32 a off = true) (hd : a.dir = .read) :
    serveAccess s a = .done (s.respond (.data (s.readReg off))) := by
  simp [serveAccess, h, hal, hd]

/-- A write to CMD that reaches the core is a command to run (R36). -/
theorem serveAccess_command {s : State} {a : Access} (h : admitAccess s a = .ok cmdOffset)
    (hal : aligned32 a cmdOffset = true) (hd : a.dir = .write) :
    serveAccess s a = .command a.wdata (s.respond .ack) := by
  simp [serveAccess, h, hal, hd]

/-- Any other register write that reaches the core (R45, R46, R48). -/
theorem serveAccess_write {s : State} {a : Access} {off : Nat} (h : admitAccess s a = .ok off)
    (hal : aligned32 a off = true) (hd : a.dir = .write) (hc : off ≠ cmdOffset) :
    serveAccess s a = .done ((s.writeReg off a.wdata).respond .ack) := by
  simp [serveAccess, h, hal, hd, hc]

/-- An access that reaches the core and is rejected (R44). -/
theorem serveAccess_busError {s : State} {a : Access} {off : Nat} (h : admitAccess s a = .ok off)
    (hal : aligned32 a off = false) : serveAccess s a = .done (s.respond (busError a.dir)) := by
  simp [serveAccess, h, hal]

/-- A register write that is no command changes DIN at most (R45, R46, R48). -/
theorem State.writeReg_eq (s : State) (off : Nat) (v : Word32) :
    s.writeReg off v = { s with din := (s.writeReg off v).din } := by
  unfold State.writeReg
  split <;> rfl

/-! ### The step -/

/-- With nothing to serve, the core waits (R153). -/
theorem step_idle {s : State} (h : s.inputs = []) : step s = .next s := by
  simp only [step, h]

/-- A step that serves an interaction to its end. -/
theorem step_done {s t : State} {input : Input} {rest : List Input} (h : s.inputs = input :: rest)
    (hs : serve (s.setInputs rest) input = .done t) : step s = .next t := by
  simp only [step, h, hs]

/-- A step that runs a command word (R36). -/
theorem step_command {s t : State} {input : Input} {rest : List Input} {w : Word32} (h : s.inputs = input :: rest)
    (hs : serve (s.setInputs rest) input = .command w t) : step s = runCommand w t := by
  simp only [step, h, hs]

/-- A step that refuses. -/
theorem step_refuse {s : State} {input : Input} {rest : List Input} {r : Refusal} (h : s.inputs = input :: rest)
    (hs : serve (s.setInputs rest) input = .refuse r) : step s = .refused r := by
  simp only [step, h, hs]

end Sys2Proof.Machine
end

