-- ==== Sys2Proof/Tests/Slice0.lean ====
section
/-! SUPPORT. Small tests with expected values from spec/ (30_encoding R69, 95_test_vectors), the ill-formed terms the
checks refuse, and, for each statement of Certificates/Slice0/Obligations.lean that has hypotheses, a state and
operands that meet them (`witness_<statement>`). -/

namespace Sys2Proof.Tests

open Sys2Proof.Machine

/-! ### Sample states -/

/-- The next state of an answer; the reset state where there is none. -/
def nextOf : Result → State
  | .next t => t
  | .fault _ => State.reset
  | .refused _ => State.reset

/-- Whether an answer is a next state. -/
def isNext : Result → Bool
  | .next _ => true
  | .fault _ => false
  | .refused _ => false

/-- T-RB-4: RING, CAP = 3, TAIL = 1. -/
def ring3 : State :=
  { State.reset with
    mode := .ring, cap := 3#16, tail := 1#16, din := 0x7#64,
    stor := [(0, 0x1#64), (1, 0x2#64), (2, 0xAAAAAAAAAAAAAAAA#64)] }

/-- ring3 one push later: TAIL = CAP - 1, so the push slot wraps to 0. -/
def ring3AtEnd : State := { ring3 with tail := 2#16 }

/-- T-FF-2: a fresh filter with weights 1.0, 2.0, 3.0, still staged, and DIN = 1.0. -/
def fir3 : State :=
  { State.reset with
    mode := .fir, cap := 3#16, tail := 2#16, din := 0x3FF0000000000000#64,
    wts := [(0, 0x3FF0000000000000#64), (1, 0x4000000000000000#64), (2, 0x4008000000000000#64)],
    wstage := [(0, 0x3FF0000000000000#64), (1, 0x4000000000000000#64), (2, 0x4008000000000000#64)],
    wcount := 3#16 }

/-- fir3 with other history: the delay line is not zero. -/
def fir3Used : State := { fir3 with stor := [(0, 0x4000000000000000#64), (2, 0x3FF0000000000000#64)] }

/-- A one-tap filter with the given weight and sample. -/
def fir1 (w x : Word64) : State :=
  { State.reset with mode := .fir, cap := 1#16, wts := Elems.cell 0 w, din := x }

/-- A core with N_MAX = 2 and a full staging. -/
def full2 : State :=
  { State.resetWith ⟨2#16, 64⟩ with wcount := 2#16, wstage := [(0, 0x9#64)], din := 0x7#64 }

/-- A core with N_MAX = 8 and seven staged weights (V-S7 with N_MAX below 10). -/
def staged7 (nMax : Word16) : State := { State.resetWith ⟨nMax, 64⟩ with wcount := 7#16 }

theorem reset_inv : State.reset.Inv where
  cfgWf := by decide
  unconfiguredIff := by decide
  capLe := by decide
  tailLt := by decide
  tailZero := by decide
  wcountLe := by decide
  storWf := by decide
  wtsWf := by decide
  wstageWf := by decide
  inReset := by decide

theorem ring3_inv : ring3.Inv where
  cfgWf := by decide
  unconfiguredIff := by decide
  capLe := by decide
  tailLt := by decide
  tailZero := by decide
  wcountLe := by decide
  storWf := by decide
  wtsWf := by decide
  wstageWf := by decide
  inReset := by decide

theorem ring3AtEnd_inv : ring3AtEnd.Inv := { ring3_inv with tailLt := by decide, tailZero := by decide, inReset := by decide }

theorem fir3_inv : fir3.Inv where
  cfgWf := by decide
  unconfiguredIff := by decide
  capLe := by decide
  tailLt := by decide
  tailZero := by decide
  wcountLe := by decide
  storWf := by decide
  wtsWf := by decide
  wstageWf := by decide
  inReset := by decide

theorem fir3Used_inv : fir3Used.Inv := { fir3_inv with storWf := by decide, inReset := by decide }

theorem full2_inv : full2.Inv where
  cfgWf := by decide
  unconfiguredIff := by decide
  capLe := by decide
  tailLt := by decide
  tailZero := by decide
  wcountLe := by decide
  storWf := by decide
  wtsWf := by decide
  wstageWf := by decide
  inReset := by decide

theorem staged7_inv : (staged7 8#16).Inv ∧ (staged7 10#16).Inv := by
  constructor <;> constructor <;> decide

/-! ### Ill-formed terms are refused -/

/-- R7: N_MAX = 0, and BASE off a 64-byte boundary. -/
theorem test_wf_config_refuses :
    Config.wf ⟨0#16, 0⟩ = false ∧ Config.wf ⟨1024#16, 4⟩ = false ∧ Config.reference.wf = true := by decide

/-- R67: n > 65535, an operand on a command without ARG, and a missing operand. -/
theorem test_wf_assembler_refuses :
    AsmLine.wf ⟨.rbinit, some 65536⟩ = false ∧ AsmLine.wf ⟨.rbpush, some 0⟩ = false ∧
    AsmLine.wf ⟨.rbget, none⟩ = false ∧ AsmLine.wf ⟨.rbinit, some 65535⟩ = true := by decide

/-- An array with falling indices, an element 0 listed, or an index past its size is not canonical. -/
theorem test_wf_elems_refuses :
    Elems.wf 4 [(2, 1#64), (1, 1#64)] = false ∧ Elems.wf 4 [(1, 0#64)] = false ∧ Elems.wf 4 [(4, 1#64)] = false := by
  decide

/-! ### Decoding: words written out from 30_encoding R60 and R63 -/

theorem test_decode_rbinit : decode 0b00000001000000000000000000000101#32 = .ok (.rbinit 5#16) := by decide

theorem test_decode_rblen : decode 0b00000010000000000000000000000000#32 = .ok .rblen := by decide

theorem test_decode_rbget : decode 0b00000011000000001111111111111111#32 = .ok (.rbget 65535#16) := by decide

theorem test_decode_rbpush : decode 0b00000100000000000000000000000000#32 = .ok .rbpush := by decide

theorem test_decode_rbpeek : decode 0b00000101000000000000000000000100#32 = .ok (.rbpeek 4#16) := by decide

theorem test_decode_wclr : decode 0b00010000000000000000000000000000#32 = .ok .wclr := by decide

theorem test_decode_wload : decode 0b00010001000000000000000000000000#32 = .ok .wload := by decide

theorem test_decode_firinit : decode 0b00010010000000000000000000001010#32 = .ok (.firinit 10#16) := by decide

theorem test_decode_firsize : decode 0b00010011000000000000000000000000#32 = .ok .firsize := by decide

theorem test_decode_filter : decode 0b00010100000000000000000000000000#32 = .ok .filter := by decide

/-- 95 section 3: illegal words, with the clause of R65 named there. -/
theorem test_decode_illegal :
    decode 0x00000000#32 = .error .opZero ∧ decode 0x0F000000#32 = .error .opUnassigned ∧
    decode 0x80000000#32 = .error .opUnassigned ∧ decode 0x03800000#32 = .error .reservedNonzero ∧
    decode 0x04010000#32 = .error .reservedNonzero ∧ decode 0x1100FFFF#32 = .error .argNonzero := by decide

/-- The table word of FIRINIT #10, on the bus lanes: least significant byte at the lowest address (R47). -/
theorem test_table_word :
    decodeTableWord 32 0x1200000A = some (.firinit 10#16) ∧
    lanesOf 0x1200000A#32 = [0x0A#8, 0x00#8, 0x00#8, 0x12#8] := by decide

/-! ### Ring-buffer commands -/

/-- T-RB-1: RBINIT #1 keeps the bits of DIN. -/
theorem test_rbinit_one :
    let t := nextOf (exec (.rbinit 1#16) { State.reset with din := 0xDEADBEEF00000001#64 })
    t.mode = .ring ∧ t.cap = 1#16 ∧ t.tail = 0#16 ∧ t.stor = [(0, 0xDEADBEEF00000001#64)] ∧ t.dout = 0#64 := by decide

/-- T-RB-2: RBINIT #2000 in RING mode changes CODE alone; STATUS = 0x14. -/
theorem test_rbinit_too_large :
    exec (.rbinit 2000#16) ring3 = .next { ring3 with code := .capacityTooLarge } ∧
    (nextOf (exec (.rbinit 2000#16) ring3)).status = 0x14#32 := ⟨rfl, by decide⟩

/-- T-RB-3: RBLEN in FIR mode. -/
theorem test_rblen_fir : (nextOf (exec .rblen fir3)).dout = 0x3#64 ∧ (nextOf (exec .rblen fir3)).status = 0x20#32 := by
  decide

/-- T-RB-3: RBLEN from reset; STATUS = 0x05. -/
theorem test_rblen_reset : (nextOf (exec .rblen State.reset)).status = 0x05#32 := by decide

/-- T-RB-4: RBGET #0, #7 and #65535. -/
theorem test_rbget_wraps :
    (nextOf (exec (.rbget 0#16) ring3)).dout = 0xAAAAAAAAAAAAAAAA#64 ∧
    (nextOf (exec (.rbget 7#16) ring3)).dout = 0x1#64 ∧
    (nextOf (exec (.rbget 65535#16) ring3)).dout = 0xAAAAAAAAAAAAAAAA#64 := by decide

/-- R86: RBGET #(CAP-1) reads the newest element. -/
theorem test_rbget_newest : (nextOf (exec (.rbget 2#16) ring3)).dout = 0x2#64 := by decide

/-- R88: TAIL = CAP-1, so the push lands at 0 and evicts Stor[0]. -/
theorem test_rbpush_wraps :
    let t := nextOf (exec .rbpush ring3AtEnd)
    t.tail = 0#16 ∧ t.dout = 0x1#64 ∧ t.stor = [(0, 0x7#64), (1, 0x2#64), (2, 0xAAAAAAAAAAAAAAAA#64)] := by decide

/-- T-RB-5: RBPUSH in FIR mode; STATUS = 0x26. -/
theorem test_rbpush_fir : (nextOf (exec .rbpush fir3)).status = 0x26#32 := by decide

/-- T-RB-6: the last slot, and the first index past it. -/
theorem test_rbpeek_bounds :
    (nextOf (exec (.rbpeek 2#16) ring3)).dout = 0xAAAAAAAAAAAAAAAA#64 ∧
    (nextOf (exec (.rbpeek 3#16) ring3)).status = 0x17#32 := by decide

/-- T-ERR-2: NOT_CONFIGURED beats INDEX_OUT_OF_RANGE. -/
theorem test_rbpeek_reset : (nextOf (exec (.rbpeek 9#16) State.reset)).code = .notConfigured := by decide

/-! ### FIR filter commands -/

/-- Section 5: WCLR with WCOUNT = 7. -/
theorem test_wclr : (nextOf (exec .wclr (staged7 10#16))).wcount = 0#16 := by decide

/-- Section 5: a NaN weight is staged bit-exact. -/
theorem test_wload_bits :
    let t := nextOf (exec .wload { State.reset with wcount := 1#16, din := 0xFFF8000000000123#64 })
    t.wstage = [(1, 0xFFF8000000000123#64)] ∧ t.wcount = 2#16 := by decide

/-- Section 5: STAGING_FULL. -/
theorem test_wload_full : exec .wload full2 = .next { full2 with code := .stagingFull } := rfl

/-- T-FI-1: a rebuild from the staged weights zeroes the delay line. -/
theorem test_firinit_rebuild :
    let t := nextOf (exec (.firinit 3#16) fir3Used)
    t.stor = [] ∧ t.tail = 2#16 ∧ t.wts = fir3.wts ∧ t.status = 0x20#32 := by decide

/-- T-FI-2: INVALID_SIZE beats WEIGHT_LENGTH_MISMATCH, and CAPACITY_TOO_LARGE does too. -/
theorem test_firinit_priority :
    (nextOf (exec (.firinit 0#16) (staged7 10#16))).code = .invalidSize ∧
    (nextOf (exec (.firinit 10#16) (staged7 8#16))).code = .capacityTooLarge ∧
    (nextOf (exec (.firinit 10#16) (staged7 10#16))).code = .weightLengthMismatch := by decide

/-- T-FI-3: FIRSIZE in each mode. -/
theorem test_firsize :
    (nextOf (exec .firsize fir3)).dout = 0x3#64 ∧ (nextOf (exec .firsize ring3)).status = 0x16#32 ∧
    (nextOf (exec .firsize State.reset)).status = 0x05#32 := by decide

/-- T-FF-2, first call: Wts[CAP-1] meets the newest sample, 3.0 comes out. -/
theorem test_filter_impulse :
    let t := nextOf (exec .filter fir3)
    t.dout = 0x4008000000000000#64 ∧ t.tail = 0#16 ∧ t.stor = [(0, 0x3FF0000000000000#64)] := by decide +kernel

/-- T-FF-9: a signalling NaN sample keeps its bits, and the output is the canonical NaN. -/
theorem test_filter_nan :
    let t := nextOf (exec .filter (fir1 0x3FF0000000000000#64 0x7FF0000000000001#64))
    t.dout = 0x7FF8000000000000#64 ∧ t.stor = [(0, 0x7FF0000000000001#64)] ∧ t.status = 0x20#32 := by decide +kernel

/-- T-FF-13 and T-FF-11: subnormal ties go to even, and overflow goes to infinity. -/
theorem test_fmul64_rounding :
    fmul64 0x3FE0000000000000#64 0x0000000000000001#64 = 0x0000000000000000#64 ∧
    fmul64 0x3FE0000000000000#64 0x0000000000000003#64 = 0x0000000000000002#64 ∧
    fmul64 0x7FE1CCF385EBC8A0#64 0x4024000000000000#64 = 0x7FF0000000000000#64 ∧
    fmul64 0x4024000000000000#64 0x3FB999999999999A#64 = 0x3FF0000000000000#64 := by decide +kernel

/-- V-S6, the partial sums of call 5, and T-FF-15: 1.0 + 1e16 is a tie that goes to even. -/
theorem test_fadd64_rounding :
    fadd64 0x3FC999999999999A#64 0x3FC999999999999A#64 = 0x3FD999999999999A#64 ∧
    fadd64 0x3FD999999999999A#64 0x3FC999999999999A#64 = 0x3FE3333333333334#64 ∧
    fadd64 0x3FE3333333333334#64 0x3FC999999999999A#64 = 0x3FE999999999999A#64 ∧
    fadd64 0x3FE999999999999A#64 0x3FC999999999999A#64 = 0x3FF0000000000000#64 ∧
    fadd64 0x3FF0000000000000#64 0x4341C37937E08000#64 = 0x4341C37937E08000#64 := by decide +kernel

/-! ### The port and the step -/

/-- T-HOST-3 and T-HOST-5: writing one half of DIN. -/
theorem test_din_half :
    (nextOf (step { ring3 with din := 0x3FF0000000000000#64, inputs := [wr ring3.cfg 0x1C 0x40000000#32] })).din =
      0x4000000000000000#64 ∧
    laneOf 0x3FF00000#32 3 = 0x3F#8 ∧ laneOf 0x3FF00000#32 2 = 0xF0#8 := by decide

/-- T-HOST-1: PARAM after reset; T-HOST-2: a write to CAP is ignored. -/
theorem test_param_and_cap :
    (nextOf (step { State.reset with inputs := [rd Config.reference 0x00] })).readValues = [0x00000400#32] ∧
    (nextOf (step { ring3 with inputs := [wr ring3.cfg 0x0C 0xFFFFFFFF#32] })).readReg 0x0C = 3#32 := by decide

/-- T-HOST-4: an 8-bit write to CMD, a 16-bit read of STATUS and a misaligned read. -/
theorem test_bus_errors :
    (nextOf (step { ring3 with inputs := [.access ⟨.host, .write, 8, 0x08, 0x04#32⟩] })).log = [.writeError] ∧
    (nextOf (step { ring3 with inputs := [.access ⟨.host, .read, 16, 0x04, 0#32⟩] })).log = [.readError 0#32] ∧
    (nextOf (step { ring3 with inputs := [.access ⟨.host, .read, 32, 0x1A, 0#32⟩] })).log = [.readError 0#32] := by
  decide

/-- 95 section 3: from RING mode a write of 0 to CMD gives STATUS = 0x19. -/
theorem test_illegal_word : (nextOf (step (ring3.withFetchWord 32 0))).status = 0x19#32 := by decide

/-- A table word, placed and stepped, runs from reset. -/
theorem test_fetch_word : isNext (step (State.reset.withFetchWord 32 0x01000005)) = true ∧
    (nextOf (step (State.reset.withFetchWord 32 0x01000005))).cap = 5#16 := by decide

/-- R68: `PUSH v64` writes LO, then HI, then the word of RBPUSH to CMD. -/
theorem test_pseudo_push :
    pseudoPush Config.reference 0x0123456789ABCDEF#64 =
      [wr Config.reference 0x18 0x89ABCDEF#32, wr Config.reference 0x1C 0x01234567#32,
       wr Config.reference 0x08 0x04000000#32] := by decide

/-- R151: `rst` brings the reset values; R152: so does a reset that cuts an access. -/
theorem test_reset :
    (nextOf (step { fir3 with inputs := [.rst true] })).wcount = 0#16 ∧
    (nextOf (step { fir3 with inputs := [.cutAccess ⟨.host, .write, 32, 0x08, 0x14000000#32⟩] })).log =
      [.noResponse] := by decide

/-! ### Witnesses of the statements' hypotheses -/

theorem witness_EncodeOfDecodedWord : decode 0x0300FFFF#32 = .ok (.rbget 65535#16) := by decide

theorem witness_RowSelectsTheCommand :
    (∃ r ∈ opcodeMap, r.selects 0x14000000#32 = true) ∧ ∀ r ∈ opcodeMap, r.selects 0x15000000#32 = false := by decide

/-- One word for each of (a) to (d), at the bounds of (b). -/
theorem witness_IllegalWordsSetCodeNine :
    opOf 0x00000000#32 = 0x00#8 ∧
    (0x06#8 ≤ opOf 0x06000000#32 ∧ opOf 0x06000000#32 ≤ 0x0F#8) ∧
    (0x06#8 ≤ opOf 0x0F000000#32 ∧ opOf 0x0F000000#32 ≤ 0x0F#8) ∧
    0x15#8 ≤ opOf 0x15000000#32 ∧ 0x15#8 ≤ opOf 0xFF000000#32 ∧
    (opOf 0x01010005#32 ∈ assignedOps ∧ rsvdOf 0x01010005#32 ≠ 0x00#8) ∧
    (opOf 0x04000001#32 ∈ noArgOps ∧ argOf 0x04000001#32 ≠ 0x0000#16) := by decide

theorem witness_AssemblerWordsAndRejections :
    (65535 : Nat) ≤ 65535 ∧ (65535 : Nat) < 65536 ∧ Mnemonic.takesArg .rbpush = false ∧
    Mnemonic.takesArg .firinit = true := by decide

theorem witness_LanesAndHalvesRebuildTheValue : (0 : Nat) < 4 ∧ (3 : Nat) < 4 ∧ (7 : Nat) < 8 := by decide

/-- A legal word and an illegal one, about to be written to CMD. -/
theorem witness_StepRunsTheDecodedCommand :
    ({ ring3 with inputs := [wr ring3.cfg 0x08 0x04000000#32] } : State).inputs =
      .access ⟨.host, .write, 32, ring3.cfg.base + 0x08, 0x04000000#32⟩ :: [] ∧ ring3.rst = false ∧
    decode 0x04000000#32 = .ok .rbpush ∧ decode 0x04000001#32 = .error .argNonzero := by decide

/-- The first and the last register of the window. -/
theorem witness_ReadAnswersAndChangesNothing :
    ({ ring3 with inputs := [rd ring3.cfg 0x3C] } : State).inputs =
      .access ⟨.host, .read, 32, ring3.cfg.base + 0x3C, 0#32⟩ :: [] ∧ ring3.rst = false ∧
    0x3C < 0x40 ∧ 0x3C % 4 = 0 ∧ 0x00 < 0x40 ∧ 0x00 % 4 = 0 := by decide

/-- DIN_LO, DIN_HI, and an offset that is neither. -/
theorem witness_WritesChangeOnlyDinHalves :
    ({ ring3 with inputs := [wr ring3.cfg 0x18 1#32] } : State).inputs =
      .access ⟨.host, .write, 32, ring3.cfg.base + 0x18, 1#32⟩ :: [] ∧ ring3.rst = false ∧
    (∀ off ∈ [0x18, 0x1C, 0x3C], off < 0x40 ∧ off % 4 = 0 ∧ off ≠ 0x08) := by decide

/-- A narrow access, and a misaligned one at the window's last byte. -/
theorem witness_BusErrorChangesNothing :
    ({ ring3 with inputs := [.access ⟨.host, .write, 16, ring3.cfg.base + 0x08, 0x0400#32⟩] } : State).inputs =
      .access ⟨.host, .write, 16, ring3.cfg.base + 0x08, 0x0400#32⟩ :: [] ∧ ring3.rst = false ∧ 0x08 < 0x40 ∧
    (16 ≠ 32 ∨ 0x08 % 4 ≠ 0) ∧ 0x3F < 0x40 ∧ (32 ≠ 32 ∨ 0x3F % 4 ≠ 0) := by decide

/-- The first address past the window, the last in it, and a core with `rst` asserted. -/
theorem witness_AccessesOutsideTheContractRefused :
    ({ full2 with inputs := [.access ⟨.other, .read, 32, 128, 0#32⟩] } : State).inputs =
      .access ⟨.other, .read, 32, 128, 0#32⟩ :: [] ∧
    ¬(full2.cfg.base ≤ 128 ∧ 128 < full2.cfg.base + 0x40) ∧ ¬(full2.cfg.base ≤ 63 ∧ 63 < full2.cfg.base + 0x40) ∧
    full2.cfg.base ≤ 127 ∧ 127 < full2.cfg.base + 0x40 ∧ (full2.setRst true).rst = true := by decide

theorem witness_RstPulseGivesResetState :
    ({ fir3 with inputs := [.rst true, .rst false] } : State).inputs = .rst true :: .rst false :: [] := rfl

theorem witness_ResetAbandonsTheCommand :
    ({ fir3 with inputs := [.cutAccess ⟨.host, .write, 32, fir3.cfg.base + 0x08, 0x14000000#32⟩] } : State).inputs =
      .cutAccess ⟨.host, .write, 32, fir3.cfg.base + 0x08, 0x14000000#32⟩ :: [] ∧ fir3.rst = false := by decide

theorem witness_PowerDownGivesResetState :
    ({ fir3 with inputs := [.powerDown] } : State).inputs = .powerDown :: [] := rfl

theorem witness_ResetMeetsInvariants :
    Config.reference.wf = true ∧ Config.wf ⟨1#16, 0⟩ = true ∧ Config.wf ⟨65535#16, 64⟩ = true := by decide

/-- A step that answers a next state, from a state that meets the invariants. -/
theorem witness_StepKeepsInvariants :
    ({ fir3 with inputs := [cmd fir3.cfg .rblen] } : State).Inv ∧
    isNext (step { fir3 with inputs := [cmd fir3.cfg .rblen] }) = true :=
  ⟨{ fir3_inv with inReset := by decide }, by decide⟩

theorem witness_EveryCommandWordCompletes : State.reset.Inv ∧ ring3.Inv ∧ fir3.Inv ∧ full2.Inv :=
  ⟨reset_inv, ring3_inv, fir3_inv, full2_inv⟩

theorem witness_AdmittedInteractionsAreServed :
    ({ ring3 with inputs := [rd ring3.cfg 0x04] } : State).Inv ∧
    ring3.cfg.base ≤ ring3.cfg.base + 0x04 ∧ ring3.cfg.base + 0x04 < ring3.cfg.base + 0x40 ∧ ring3.rst = false :=
  ⟨{ ring3_inv with inReset := by decide }, by decide⟩

theorem witness_FailedCommandChangesOnlyCode :
    isNext (runCommand 0x14000000#32 ring3) = true ∧ (nextOf (runCommand 0x14000000#32 ring3)).code ≠ .ok := by decide

/-- The three kinds of entry of the mode table. -/
theorem witness_ModeAdmissionTable :
    State.reset.Inv ∧ ring3.Inv ∧ admission .rblen State.reset.mode = some .notConfigured ∧
    admission .filter ring3.mode = some .modeError ∧ admission .rblen ring3.mode = none :=
  ⟨reset_inv, ring3_inv, rfl, rfl, rfl⟩

theorem witness_ErrorPriority :
    State.reset.Inv ∧ illegalWord 0x04000001#32 ∧ decode 0x05000009#32 = .ok (.rbpeek 9#16) :=
  ⟨reset_inv, by unfold illegalWord; decide, by decide⟩

/-- Commands that write each element. -/
theorem witness_WritersOfEachElement :
    isNext (exec (.firinit 3#16) fir3Used) = true ∧ isNext (exec .wload ring3) = true ∧
    (nextOf (exec .wload ring3)).wstage ≠ ring3.wstage ∧ (nextOf (exec .wload ring3)).wcount ≠ ring3.wcount ∧
    (nextOf (exec .rbpush ring3)).stor ≠ ring3.stor ∧ (nextOf (exec .rbpush ring3)).dout ≠ ring3.dout ∧
    (nextOf (exec (.rbinit 2#16) fir3)).cap ≠ fir3.cap ∧
    (nextOf (exec (.firinit 3#16) { fir3Used with wstage := [] })).wts ≠ fir3Used.wts := by decide

theorem witness_OnlyPushAndFilterMutate :
    ring3.Inv ∧ ring3.mode ≠ .unconfigured ∧ isNext (exec .rbpush ring3) = true ∧
    (∀ n, Instr.rbpush ≠ .rbinit n) ∧ ∀ n, Instr.rbpush ≠ .firinit n :=
  ⟨ring3_inv, by decide, by decide, nofun, nofun⟩

/-- A construction and a reset, each changing CAP. -/
theorem witness_CapChangesOnlyOnConstructionOrReset :
    (nextOf (step { ring3 with inputs := [cmd ring3.cfg (.rbinit 2#16)] })).cap ≠ ring3.cap ∧
    isNext (step { ring3 with inputs := [cmd ring3.cfg (.rbinit 2#16)] }) = true ∧
    (nextOf (step { ring3 with inputs := [.powerDown] })).cap ≠ ring3.cap := by decide

/-- Two states that differ in Stor[CAP], and in Wts[0] in RING mode. -/
theorem witness_HiddenStateIsUnobservable :
    ring3.Inv ∧ SameVisible ring3
      { ring3 with stor := ring3.stor ++ [(3, 0x9#64)], wts := [(0, 0x9#64)], wstage := [(0, 0x9#64)] } ∧
    ({ ring3 with stor := ring3.stor ++ [(3, 0x9#64)], wts := [(0, 0x9#64)], wstage := [(0, 0x9#64)] } : State).Inv :=
  ⟨ring3_inv,
   { mode := rfl, cap := rfl, tail := rfl, wcount := rfl, din := rfl, dout := rfl, code := rfl, cfg := rfl, rst := rfl,
     inputs := rfl, log := rfl, stor := by decide, wts := by decide, wstage := by decide },
   { ring3_inv with storWf := by decide, wtsWf := by decide, wstageWf := by decide, inReset := by decide }⟩

/-- RBINIT's clauses at their bounds: RSVD zero and not, capacity 1, N_MAX and N_MAX + 1. -/
theorem witness_RbinitBuildsRingBuffer :
    opOf 0x01000005#32 = 0x01#8 ∧ rsvdOf 0x01000005#32 = 0x00#8 ∧ opOf 0x01010005#32 = 0x01#8 ∧
    rsvdOf 0x01010005#32 ≠ 0x00#8 ∧ (1025#16 ≠ 0#16 ∧ State.reset.cfg.nMax < 1025#16) ∧
    (1#16 ≠ 0#16 ∧ 1#16 ≤ State.reset.cfg.nMax) ∧ 1024#16 ≤ State.reset.cfg.nMax := by decide

theorem witness_RbinitThenReadBack :
    fir3.Inv ∧ 1#16 ≤ 1#16 ∧ 1#16 ≤ fir3.cfg.nMax ∧ 1024#16 ≤ fir3.cfg.nMax ∧ fir3.cfg.nMax < 1025#16 :=
  ⟨fir3_inv, by decide⟩

theorem witness_RblenReturnsCapacity :
    (opOf 0x02000001#32 = 0x02#8 ∧ 0x02000001#32 ≠ 0x02000000#32) ∧ State.reset.mode = .unconfigured ∧
    ring3.mode ≠ .unconfigured ∧ fir3.mode ≠ .unconfigured := by decide

theorem witness_RbgetReadsLogicalIndex :
    ring3.Inv ∧ State.reset.Inv ∧ (opOf 0x03000000#32 = 0x03#8 ∧ rsvdOf 0x03000000#32 = 0x00#8) ∧
    (opOf 0x03800000#32 = 0x03#8 ∧ rsvdOf 0x03800000#32 ≠ 0x00#8) ∧ State.reset.mode = .unconfigured ∧
    ring3.mode ≠ .unconfigured :=
  ⟨ring3_inv, reset_inv, by decide⟩

theorem witness_RbgetWrapsAndEndsAtTail : fir3.Inv ∧ fir3.mode ≠ .unconfigured := ⟨fir3_inv, by decide⟩

/-- Two reads of one index with a read and a staged weight in between. -/
theorem witness_RbgetRepeatsItsValue :
    ring3.Inv ∧ ring3.mode ≠ .unconfigured ∧ isNext (exec (.rbget 7#16) ring3) = true ∧
    (([.rbget 0#16, .wload] : List Instr).all fun j => !changesObject j) = true ∧
    (issue [.rbget 0#16, .wload] (nextOf (exec (.rbget 7#16) ring3))).isSome = true :=
  ⟨ring3_inv, by decide⟩

/-- RBPUSH's clauses: another word with its OP, each mode, and the slot at both ends. -/
theorem witness_RbpushEvictsTheOldest :
    ring3.Inv ∧ ring3AtEnd.Inv ∧ fir3.Inv ∧ State.reset.Inv ∧
    (opOf 0x04000001#32 = 0x04#8 ∧ 0x04000001#32 ≠ 0x04000000#32) ∧ State.reset.mode = .unconfigured ∧
    fir3.mode = .fir ∧ ring3.mode = .ring ∧ ring3AtEnd.mode = .ring :=
  ⟨ring3_inv, ring3AtEnd_inv, fir3_inv, reset_inv, by decide⟩

theorem witness_PushShiftsTheLogicalContents : ring3.Inv ∧ ring3.mode = .ring := ⟨ring3_inv, rfl⟩

/-- As many pushes as slots. -/
theorem witness_PushesAreFifo :
    ring3.Inv ∧ ring3.mode = .ring ∧ ([0x3#64, 0x4#64, 0x5#64] : List Word64).length = ring3.cap.toNat :=
  ⟨ring3_inv, rfl, by decide⟩

/-- RBPEEK's clauses, where they meet: CAP-1 and CAP. -/
theorem witness_RbpeekReadsPhysicalIndex :
    ring3.Inv ∧ State.reset.Inv ∧ (opOf 0x05000004#32 = 0x05#8 ∧ rsvdOf 0x05000004#32 = 0x00#8) ∧
    (opOf 0x05010004#32 = 0x05#8 ∧ rsvdOf 0x05010004#32 ≠ 0x00#8) ∧ State.reset.mode = .unconfigured ∧
    ring3.mode ≠ .unconfigured ∧ ring3.cap ≤ 3#16 ∧ 2#16 < ring3.cap :=
  ⟨ring3_inv, reset_inv, by decide⟩

theorem witness_PeekAtPhysEqualsGet : ring3.Inv ∧ ring3.mode ≠ .unconfigured := ⟨ring3_inv, by decide⟩

theorem witness_WclrEmptiesTheStaging : opOf 0x10000001#32 = 0x10#8 ∧ 0x10000001#32 ≠ 0x10000000#32 := by decide

theorem witness_WloadAppendsAWeight :
    full2.Inv ∧ fir3.Inv ∧ (opOf 0x1100FFFF#32 = 0x11#8 ∧ 0x1100FFFF#32 ≠ 0x11000000#32) ∧
    full2.wcount = full2.cfg.nMax ∧ fir3.wcount ≠ fir3.cfg.nMax :=
  ⟨full2_inv, fir3_inv, by decide⟩

/-- As many weights as the staging holds. -/
theorem witness_LoadsStageTheVector :
    full2.Inv ∧ ([0x1#64, 0x2#64] : List Word64).length ≤ full2.cfg.nMax.toNat ∧ 1 < ([0x1#64, 0x2#64] : List Word64).length :=
  ⟨full2_inv, by decide⟩

/-- FIRINIT's clauses: RSVD zero and not; too large; a mismatch; and equality. -/
theorem witness_FirinitBuildsFilter :
    (opOf 0x1200000A#32 = 0x12#8 ∧ rsvdOf 0x1200000A#32 = 0x00#8) ∧
    (opOf 0x12FF000A#32 = 0x12#8 ∧ rsvdOf 0x12FF000A#32 ≠ 0x00#8) ∧
    (3#16 ≠ 0#16 ∧ full2.cfg.nMax < 3#16) ∧ (1#16 ≠ 0#16 ∧ 1#16 ≤ full2.cfg.nMax ∧ full2.wcount ≠ 1#16) ∧
    (2#16 ≠ 0#16 ∧ 2#16 ≤ full2.cfg.nMax ∧ full2.wcount = 2#16) := by decide

theorem witness_StagingSurvives :
    (Instr.filter ≠ .wclr ∧ Instr.filter ≠ .wload) ∧ isNext (exec (.firinit 3#16) fir3Used) = true ∧
    (nextOf (exec (.firinit 3#16) fir3Used)).code = .ok := by decide

/-- Seven weights with N_MAX at 10 and below, and a FIRINIT that completes OK. -/
theorem witness_FirinitRejectsMismatch :
    (staged7 10#16).Inv ∧ (staged7 8#16).Inv ∧ (staged7 10#16).wcount = 7#16 ∧ 10#16 ≤ (staged7 10#16).cfg.nMax ∧
    (staged7 8#16).cfg.nMax < 10#16 ∧ (nextOf (exec (.firinit 7#16) (staged7 8#16))).code = .ok :=
  ⟨staged7_inv.2, staged7_inv.1, by decide⟩

theorem witness_FirsizeReturnsSize :
    (opOf 0x13000001#32 = 0x13#8 ∧ 0x13000001#32 ≠ 0x13000000#32) ∧ State.reset.mode = .unconfigured ∧
    ring3.mode = .ring ∧ fir3.mode = .fir := by decide

theorem witness_FilterPushesAndConvolves :
    fir3.Inv ∧ ring3.Inv ∧ State.reset.Inv ∧ (opOf 0x14000005#32 = 0x14#8 ∧ 0x14000005#32 ≠ 0x14000000#32) ∧
    State.reset.mode = .unconfigured ∧ ring3.mode = .ring ∧ fir3.mode = .fir :=
  ⟨fir3_inv, ring3_inv, reset_inv, by decide⟩

theorem witness_FilterRefinesConvolution : fir3Used.Inv ∧ fir3Used.mode = .fir := ⟨fir3Used_inv, rfl⟩

/-- Two filters with the same weights and other histories, fed CAP samples. -/
theorem witness_OutputDependsOnTheWindow :
    fir3.Inv ∧ fir3Used.Inv ∧ fir3.mode = .fir ∧ fir3Used.mode = .fir ∧ fir3.weights = fir3Used.weights ∧
    fir3.cap.toNat ≤ ([0x1#64, 0x2#64, 0x3#64] : List Word64).length ∧
    (feed .filter [0x1#64, 0x2#64, 0x3#64] fir3).isSome = true ∧
    (feed .filter [0x1#64, 0x2#64, 0x3#64] fir3Used).isSome = true :=
  ⟨fir3_inv, fir3Used_inv, by decide +kernel⟩

theorem witness_ImpulseResponseIsReversedWeights :
    fir3.Inv ∧ fir3.mode = .fir ∧ fir3.logical = List.replicate fir3.cap.toNat 0x0000000000000000#64 ∧
    ∀ w ∈ fir3.weights, isFinite w = true :=
  ⟨fir3_inv, rfl, by decide +kernel, List.all_eq_true.1 (by decide +kernel)⟩

theorem witness_FilterOutputIsNeverMinusZero : fir3.Inv ∧ fir3.mode = .fir ∧ isNext (exec .filter fir3) = true :=
  ⟨fir3_inv, by decide +kernel⟩

/-- An infinite weight that meets a zero sample (T-FF-8). -/
theorem witness_FilterNanIsCanonical :
    ({ fir3 with wts := [(0, 0x7FF0000000000000#64)] } : State).Inv ∧ fir3.mode = .fir ∧
    isNext (exec .filter { fir3 with wts := [(0, 0x7FF0000000000000#64)] }) = true ∧
    ∃ wd ∈ ({ fir3 with wts := [(0, 0x7FF0000000000000#64)] } : State).weights.zip
        (nextOf (exec .filter { fir3 with wts := [(0, 0x7FF0000000000000#64)] })).logical,
      isNaN (fmul64 wd.1 wd.2) = true :=
  ⟨{ fir3_inv with wtsWf := by decide, inReset := by decide }, by decide +kernel⟩

/-- A NaN operand, and NaN results without one. -/
theorem witness_NanResultsAreCanonical :
    isNaN 0x7FF0000000000001#64 = true ∧ isNaN (fmul64 0x7FF0000000000000#64 0x8000000000000000#64) = true ∧
    isNaN (fadd64 0x7FF0000000000000#64 0xFFF0000000000000#64) = true := by decide +kernel

/-- An infinity, a zero, a finite value and a product that is no NaN. -/
theorem witness_ProductSignAndSpecialCases :
    isInf 0xFFF0000000000000#64 = true ∧ isZero 0x8000000000000000#64 = true ∧
    (isNaN 0x3FF0000000000000#64 = false ∧ isZero 0x3FF0000000000000#64 = false ∧
      isFinite 0x3FF0000000000000#64 = true) ∧
    isNaN (fmul64 0xBFF0000000000000#64 0x3FF0000000000000#64) = false := by decide +kernel

theorem witness_SumSpecialCases :
    (isFinite 0x0000000000000001#64 = true ∧ isZero 0x0000000000000001#64 = false ∧
      0x0000000000000001#64 ≠ 0x8000000000000000#64) ∧ isInf 0xFFF0000000000000#64 = true := by decide +kernel

/-- Finite values whose sum is finite, with a tie that goes to even, and whose sum overflows. -/
theorem witness_SumIsCorrectlyRounded :
    isFinite 0x3FF0000000000000#64 = true ∧ isFinite 0x4341C37937E08000#64 = true ∧
    isFinite (fadd64 0x3FF0000000000000#64 0x4341C37937E08000#64) = true ∧
    isFinite 0xFFEFFFFFFFFFFFFF#64 = true ∧
    isFinite (fadd64 0xFFEFFFFFFFFFFFFF#64 0xFFEFFFFFFFFFFFFF#64) = false := by decide +kernel

/-- Finite values whose product is a subnormal tie, and whose product overflows. -/
theorem witness_ProductIsCorrectlyRounded :
    isFinite 0x3FE0000000000000#64 = true ∧ isFinite 0x0000000000000001#64 = true ∧
    isFinite (fmul64 0x3FE0000000000000#64 0x0000000000000001#64) = true ∧
    isFinite 0x7FE1CCF385EBC8A0#64 = true ∧
    isFinite (fmul64 0x7FE1CCF385EBC8A0#64 0x7FE1CCF385EBC8A0#64) = false := by decide +kernel

end Sys2Proof.Tests
end

/-! SUPPORT. What a command does: it completes OK as `Completes` says, or reports the code of R133 and R134. -/

namespace Sys2Proof.Machine

/-- The state after the push of RBPUSH and FILTER (R88, R110): DIN in the slot phys(0), where TAIL then points. -/
def State.pushed (s : State) : State :=
  { s with stor := s.stor.write (s.phys 0) s.din, tail := BitVec.ofNat 16 (s.phys 0) }

/-- The push of DIN, when its slot is in range (R51): the evicted element and `pushed`. -/
theorem State.pushSlot_din (s : State) :
    s.pushSlot s.din =
      if s.phys 0 < s.cap.toNat ∧ s.phys 0 < s.nMax then .ok (s.stor.read (s.phys 0), s.pushed)
      else .error .elementOutOfRange := by
  unfold State.pushSlot State.storRead State.storWrite State.pushed
  by_cases hp : s.phys 0 < s.cap.toNat ∧ s.phys 0 < s.nMax <;> simp [hp]

/-- `Completes i s t`: the command `i` completes OK in `s`, and leaves `t` (R82 to R110, one constructor a command, with
the element accesses of R51 in range). `exec_next_cases` and `exec_of_completes` tie it to `exec`. -/
inductive Completes : Instr → State → State → Prop where
  | rbinit {s : State} {n : Word16} (hpos : n ≠ 0#16) (hle : n ≤ s.cfg.nMax) :
      Completes (.rbinit n) s
        { s with mode := .ring, cap := n, tail := n - 1#16, stor := s.stor.fill n.toNat s.din, code := .ok }
  | rblen {s : State} (hm : s.mode ≠ .unconfigured) :
      Completes .rblen s { s with dout := s.cap.setWidth 64, code := .ok }
  | rbget {s : State} {i : Word16} (hm : s.mode ≠ .unconfigured)
      (hp : s.phys i.toNat < s.cap.toNat ∧ s.phys i.toNat < s.nMax) :
      Completes (.rbget i) s { s with dout := s.stor.read (s.phys i.toNat), code := .ok }
  | rbpush {s : State} (hm : s.mode = .ring) (hp : s.phys 0 < s.cap.toNat ∧ s.phys 0 < s.nMax) :
      Completes .rbpush s { s.pushed with dout := s.stor.read (s.phys 0), code := .ok }
  | rbpeek {s : State} {p : Word16} (hm : s.mode ≠ .unconfigured) (hp : p.toNat < s.cap.toNat ∧ p.toNat < s.nMax) :
      Completes (.rbpeek p) s { s with dout := s.stor.read p.toNat, code := .ok }
  | wclr {s : State} : Completes .wclr s { s with wcount := 0#16, code := .ok }
  | wload {s : State} (hlt : s.wcount.toNat < s.nMax) :
      Completes .wload s
        { s with wstage := s.wstage.write s.wcount.toNat s.din, wcount := s.wcount + 1#16, code := .ok }
  | firinit {s : State} {n : Word16} (hpos : n ≠ 0#16) (hle : n ≤ s.cfg.nMax) (hw : s.wcount = n) :
      Completes (.firinit n) s
        { s with
          mode := .fir, cap := n, tail := n - 1#16, stor := s.stor.fill n.toNat 0#64,
          wts := s.wts.copyFrom s.wstage n.toNat, code := .ok }
  | firsize {s : State} (hm : s.mode = .fir) :
      Completes .firsize s { s with dout := s.cap.setWidth 64, code := .ok }
  | filter {s : State} {acc : Word64} (hm : s.mode = .fir) (hp : s.phys 0 < s.cap.toNat ∧ s.phys 0 < s.nMax)
      (hacc : s.pushed.macUpTo s.cap.toNat = .ok acc) :
      Completes .filter s { s.pushed with dout := acc, code := .ok }

/-- RBGET and RBPEEK once mode and arguments are admitted (R86, R90). -/
theorem finish_storRead_next {s t : State} {p : Nat} :
    finish ((s.storRead p).map s.putDout) = .next t ↔
      (p < s.cap.toNat ∧ p < s.nMax) ∧ t = { s with dout := s.stor.read p, code := .ok } := by
  unfold State.storRead
  split <;> simp [Except.map, State.putDout, eq_comm, *]

/-- RBPUSH once its mode is admitted (R88). -/
theorem finish_push_next {s t : State} :
    finish ((s.pushSlot s.din).map fun r => r.2.putDout r.1) = .next t ↔
      (s.phys 0 < s.cap.toNat ∧ s.phys 0 < s.nMax) ∧
        t = { s.pushed with dout := s.stor.read (s.phys 0), code := .ok } := by
  rw [State.pushSlot_din]
  split_ifs with hp <;> simp [Except.map, State.putDout, hp, eq_comm]

/-- FILTER once its mode is admitted (R110): the sum is taken over the delay line after the push. -/
theorem finish_filter_next {s t : State} :
    finish ((s.pushSlot s.din).bind fun r => (r.2.macUpTo r.2.cap.toNat).map r.2.putDout) = .next t ↔
      (s.phys 0 < s.cap.toNat ∧ s.phys 0 < s.nMax) ∧
        ∃ acc, s.pushed.macUpTo s.cap.toNat = .ok acc ∧ t = { s.pushed with dout := acc, code := .ok } := by
  have hcap : s.pushed.cap = s.cap := rfl
  rw [State.pushSlot_din]
  split_ifs with hp
  · cases hacc : s.pushed.macUpTo s.cap.toNat <;>
      simp [Except.bind, Except.map, State.putDout, hp, hcap, hacc, eq_comm]
  · simp [Except.bind, hp]

/-- A command that completes OK in `Completes` is answered so by `exec`. -/
theorem exec_of_completes {i : Instr} {s t : State} (h : Completes i s t) : exec i s = .next t := by
  cases h with
  | rbinit hpos hle => simp [exec, execRbinit, hpos, BitVec.not_lt.2 hle]
  | rblen hm => exact needObject_next.2 (.inr ⟨hm, rfl⟩)
  | rbget hm hp => exact needObject_next.2 (.inr ⟨hm, finish_storRead_next.2 ⟨hp, rfl⟩⟩)
  | rbpush hm hp => exact needRing_next.2 (.inr (.inr ⟨hm, finish_push_next.2 ⟨hp, rfl⟩⟩))
  | rbpeek hm hp =>
    refine needObject_next.2 (.inr ⟨hm, ?_⟩)
    rw [if_neg (BitVec.not_le.2 (BitVec.lt_def.2 hp.1))]
    exact finish_storRead_next.2 ⟨hp, rfl⟩
  | wclr => rfl
  | wload hlt =>
    have hne : s.wcount ≠ s.cfg.nMax := fun h => by simp [State.nMax, h] at hlt
    simp [exec, execWload, hne, State.wstageAppend, hlt]
  | firinit hpos hle hw => simp [exec, execFirinit, hpos, BitVec.not_lt.2 hle, hw]
  | firsize hm => exact needFir_next.2 (.inr (.inr ⟨hm, rfl⟩))
  | filter hm hp hacc => exact needFir_next.2 (.inr (.inr ⟨hm, finish_filter_next.2 ⟨hp, _, hacc, rfl⟩⟩))

/-- A command that the mode table R133 stops reports the table's code and does nothing else (R131). -/
theorem exec_of_admission {i : Instr} {s : State} {c : Code} (h : admission i s.mode = some c) :
    exec i s = completed s c := by
  cases i with
  | rbinit | wclr | wload | firinit => cases h
  | rblen | rbget | rbpeek =>
    cases hm : s.mode <;> rw [hm] at h <;> cases h
    exact needObject_next.2 (.inl ⟨hm, rfl⟩)
  | rbpush =>
    cases hm : s.mode <;> rw [hm] at h <;> cases h
    · exact needRing_next.2 (.inl ⟨hm, rfl⟩)
    · exact needRing_next.2 (.inr (.inl ⟨hm, rfl⟩))
  | firsize | filter =>
    cases hm : s.mode <;> rw [hm] at h <;> cases h
    · exact needFir_next.2 (.inl ⟨hm, rfl⟩)
    · exact needFir_next.2 (.inr (.inl ⟨hm, rfl⟩))

/-- A command that only an argument check stops reports the first such check's code and does nothing else (R131,
R134). -/
theorem exec_of_firstError {i : Instr} {s : State} (ha : admission i s.mode = none)
    (h : firstError (argumentErrors i s) ≠ .ok) :
    exec i s = completed s (firstError (argumentErrors i s)) := by
  cases i with
  | rbinit n =>
    simp only [argumentErrors, firstError, decide_eq_true_eq] at h ⊢
    simp only [exec, execRbinit]
    split_ifs at h ⊢ <;> simp_all
  | firinit n =>
    simp only [argumentErrors, firstError, decide_eq_true_eq] at h ⊢
    simp only [exec, execFirinit]
    split_ifs at h ⊢ <;> simp_all
  | rbpeek p =>
    have hm : s.mode ≠ .unconfigured := fun hm => by simp [admission, hm] at ha
    have hle : s.cap ≤ p := by simpa [argumentErrors, firstError] using h
    exact needObject_next.2 (.inr ⟨hm, by simp [argumentErrors, firstError, State.complete, hle]⟩)
  | wload =>
    have hfull : s.wcount = s.cfg.nMax := by simpa [argumentErrors, firstError] using h
    simp [exec, execWload, argumentErrors, firstError, hfull]
  | rblen | rbget | rbpush | wclr | firsize | filter => exact absurd rfl h

/-- A command that R133 or R134 stops reports the code they name and does nothing else. -/
theorem exec_of_expectedCode {i : Instr} {s : State} (h : expectedCode i s ≠ .ok) :
    exec i s = completed s (expectedCode i s) := by
  unfold expectedCode at h ⊢
  split at h
  next c ha => simpa only [ha] using exec_of_admission ha
  next ha => simpa only [ha] using exec_of_firstError ha h

/-- A command that R133 and R134 let through does what `Completes` says, if it answers a next state at all. -/
theorem completes_of_exec {i : Instr} {s t : State} (hc : expectedCode i s = .ok) (h : exec i s = .next t) :
    Completes i s t := by
  cases i with
  | rbinit n =>
    simp only [expectedCode, admission, argumentErrors, firstError, decide_eq_true_eq] at hc
    simp only [exec, execRbinit] at h
    split_ifs at hc h with hpos hlt
    cases h
    exact .rbinit hpos (BitVec.not_lt.1 hlt)
  | rblen =>
    obtain ⟨hm, -⟩ | ⟨hm, hb⟩ := needObject_next.1 h
    · simp [expectedCode, admission, hm] at hc
    · cases hb
      exact .rblen hm
  | rbget n =>
    obtain ⟨hm, -⟩ | ⟨hm, hb⟩ := needObject_next.1 h
    · simp [expectedCode, admission, hm] at hc
    · obtain ⟨hp, rfl⟩ := finish_storRead_next.1 hb
      exact .rbget hm hp
  | rbpush =>
    obtain ⟨hm, -⟩ | ⟨hm, -⟩ | ⟨hm, hb⟩ := needRing_next.1 h
    · simp [expectedCode, admission, hm] at hc
    · simp [expectedCode, admission, hm] at hc
    · obtain ⟨hp, rfl⟩ := finish_push_next.1 hb
      exact .rbpush hm hp
  | rbpeek p =>
    obtain ⟨hm, -⟩ | ⟨hm, hb⟩ := needObject_next.1 h
    · simp [expectedCode, admission, hm] at hc
    · have hlt : ¬s.cap ≤ p := fun hle => by
        cases hmode : s.mode <;> simp_all [expectedCode, admission, argumentErrors, firstError]
      rw [if_neg hlt] at hb
      obtain ⟨hp, rfl⟩ := finish_storRead_next.1 hb
      exact .rbpeek hm hp
  | wclr =>
    cases h
    exact .wclr
  | wload =>
    have hne : s.wcount ≠ s.cfg.nMax := fun hfull => by
      simp [expectedCode, admission, argumentErrors, firstError, hfull] at hc
    simp only [exec, execWload, if_neg hne] at h
    obtain ⟨u, hu, rfl⟩ := finish_next.1 h
    obtain ⟨hlt, rfl⟩ := State.wstageAppend_ok.1 hu
    exact .wload hlt
  | firinit n =>
    simp only [expectedCode, admission, argumentErrors, firstError, decide_eq_true_eq] at hc
    simp only [exec, execFirinit] at h
    split_ifs at hc h with hpos hlt hw
    cases h
    exact .firinit hpos (BitVec.not_lt.1 hlt) (not_not.1 hw)
  | firsize =>
    obtain ⟨hm, -⟩ | ⟨hm, -⟩ | ⟨hm, hb⟩ := needFir_next.1 h
    · simp [expectedCode, admission, hm] at hc
    · simp [expectedCode, admission, hm] at hc
    · cases hb
      exact .firsize hm
  | filter =>
    obtain ⟨hm, -⟩ | ⟨hm, -⟩ | ⟨hm, hb⟩ := needFir_next.1 h
    · simp [expectedCode, admission, hm] at hc
    · simp [expectedCode, admission, hm] at hc
    · obtain ⟨hp, acc, hacc, rfl⟩ := finish_filter_next.1 hb
      exact .filter hm hp hacc

/-- What a command that answers a next state did: it completed OK, or it reported another code. -/
theorem exec_next_cases {i : Instr} {s t : State} (h : exec i s = .next t) :
    Completes i s t ∨ (expectedCode i s ≠ .ok ∧ t = { s with code := expectedCode i s }) := by
  by_cases hc : expectedCode i s = .ok
  · exact .inl (completes_of_exec hc h)
  · exact .inr ⟨hc, by simpa [exec_of_expectedCode hc, eq_comm] using h⟩

theorem finish_ne_refused (e : Except Fault State) (r : Refusal) : finish e ≠ .refused r := by
  cases e <;> simp

section
variable {s : State} {body : Result} {r : Refusal} (h : body ≠ .refused r)
include h

theorem needObject_ne_refused : needObject s body ≠ .refused r := by
  unfold needObject
  cases s.mode <;> simp [h]

theorem needRing_ne_refused : needRing s body ≠ .refused r := by
  unfold needRing
  cases s.mode <;> simp [h]

theorem needFir_ne_refused : needFir s body ≠ .refused r := by
  unfold needFir
  cases s.mode <;> simp [h]

end

/-- No command is refused: each arm of `exec` has a meaning. -/
theorem exec_ne_refused (i : Instr) (s : State) (r : Refusal) : exec i s ≠ .refused r := by
  cases i with
  | rbinit n =>
    simp only [exec, execRbinit]
    split_ifs <;> simp
  | rblen => exact needObject_ne_refused (by simp)
  | rbget n => exact needObject_ne_refused (finish_ne_refused _ r)
  | rbpush => exact needRing_ne_refused (finish_ne_refused _ r)
  | rbpeek p =>
    refine needObject_ne_refused ?_
    split_ifs
    · simp
    · exact finish_ne_refused _ r
  | wclr => simp [exec, execWclr]
  | wload =>
    simp only [exec, execWload]
    split_ifs
    · simp
    · exact finish_ne_refused _ r
  | firinit n =>
    simp only [exec, execFirinit]
    split_ifs <;> simp
  | firsize => exact needFir_ne_refused (by simp)
  | filter => exact needFir_ne_refused (finish_ne_refused _ r)

end Sys2Proof.Machine

/-! SUPPORT. What a step does: the interactions of R162 and the command words. -/

namespace Sys2Proof.Machine

/-- A word that runs to a next state: the command it encodes ran, or the word is illegal (R64, R65). -/
theorem runCommand_next_cases {w : Word32} {s t : State} (h : runCommand w s = .next t) :
    (∃ i, decode w = .ok i ∧ exec i s = .next t) ∨ t = { s with code := .illegalCommand } := by
  unfold runCommand at h
  split at h
  next i hi => exact .inl ⟨i, hi, h⟩
  next => cases h; exact .inr rfl

/-- No command word is refused. -/
theorem runCommand_ne_refused (w : Word32) (s : State) (r : Refusal) : runCommand w s ≠ .refused r := by
  unfold runCommand
  split
  · exact exec_ne_refused _ s r
  · simp

/-- What a step that answers a next state did: it waited, it served an interaction to its end, or it ran a command
word. -/
theorem step_next_cases {s t : State} (h : step s = .next t) :
    t = s ∨ ∃ input rest, s.inputs = input :: rest ∧
      (serve (s.setInputs rest) input = .done t ∨
        ∃ w u, serve (s.setInputs rest) input = .command w u ∧ runCommand w u = .next t) := by
  cases hin : s.inputs with
  | nil => exact .inl (by simpa [step_idle hin, eq_comm] using h)
  | cons input rest =>
    refine .inr ⟨input, rest, rfl, ?_⟩
    cases hs : serve (s.setInputs rest) input with
    | done u => exact .inl (by simpa [step_done hin hs] using h)
    | command w u => exact .inr ⟨w, u, rfl, by rwa [step_command hin hs] at h⟩
    | refuse r => simp [step_refuse hin hs] at h

/-- An access that reaches the core is a register read, a command, another register write or a bus error (R42 to R48). -/
theorem serveAccess_cases {s : State} {a : Access} {off : Nat} (h : admitAccess s a = .ok off) :
    serveAccess s a = .done (s.respond (.data (s.readReg off))) ∨
    (off = cmdOffset ∧ a.dir = .write ∧ serveAccess s a = .command a.wdata (s.respond .ack)) ∨
    serveAccess s a = .done ((s.writeReg off a.wdata).respond .ack) ∨
    serveAccess s a = .done (s.respond (busError a.dir)) := by
  cases hal : aligned32 a off with
  | false => exact .inr (.inr (.inr (serveAccess_busError h hal)))
  | true =>
    cases hd : a.dir with
    | read => exact .inl (serveAccess_read h hal hd)
    | write =>
      by_cases hc : off = cmdOffset
      · subst hc
        exact .inr (.inl ⟨rfl, rfl, serveAccess_command h hal hd⟩)
      · exact .inr (.inr (.inl (serveAccess_write h hal hd hc)))

/-- An access refused at the port is not served. -/
theorem serveAccess_refused {s : State} {a : Access} {r : Refusal} (h : admitAccess s a = .error r) :
    serveAccess s a = .refuse r := by
  simp [serveAccess, h]

/-- An access served to its end changes DIN and the record of responses at most, and `rst` was low. -/
theorem serveAccess_done {s t : State} {a : Access} (h : serveAccess s a = .done t) :
    s.rst = false ∧ t = { s with din := t.din, log := t.log } := by
  cases ha : admitAccess s a with
  | error r => simp [serveAccess_refused ha] at h
  | ok off =>
    obtain ⟨-, -, -, hrst, -⟩ := admitAccess_ok.1 ha
    refine ⟨hrst, ?_⟩
    obtain hs | ⟨-, -, hs⟩ | hs | hs := serveAccess_cases ha
    · cases hs.symm.trans h
      rfl
    · cases hs.symm.trans h
    · cases hs.symm.trans h
      rw [State.writeReg_eq]
      rfl
    · cases hs.symm.trans h
      rfl

/-- An access that starts a command is a write to CMD, while `rst` is low, of the word that runs. -/
theorem serveAccess_eq_command {s u : State} {a : Access} {w : Word32} (h : serveAccess s a = .command w u) :
    a.dir = .write ∧ a.addr = s.cfg.base + 0x08 ∧ s.rst = false ∧ w = a.wdata ∧ u = s.respond .ack := by
  cases ha : admitAccess s a with
  | error r => simp [serveAccess_refused ha] at h
  | ok off =>
    obtain ⟨hle, -, -, hrst, hoff⟩ := admitAccess_ok.1 ha
    obtain hs | ⟨hcmd, hd, hs⟩ | hs | hs := serveAccess_cases ha
    · cases hs.symm.trans h
    · cases hs.symm.trans h
      unfold cmdOffset at hcmd
      exact ⟨hd, by omega, hrst, rfl, rfl⟩
    · cases hs.symm.trans h
    · cases hs.symm.trans h

/-- Only an access starts a command. -/
theorem serve_eq_command {s u : State} {input : Input} {w : Word32} (h : serve s input = .command w u) :
    ∃ a, input = .access a ∧ serveAccess s a = .command w u := by
  cases input with
  | access a => exact ⟨a, rfl, h⟩
  | cutAccess a =>
    simp only [serve, serveCut] at h
    split at h <;> cases h
  | rst b => cases h
  | powerDown => cases h

/-- An interaction served to its end without a command: an access outside reset, which touches DIN and the record at
most; a level of `rst` that was there already; or a reset or power-down, never an access served in full (R146, R151,
R152). -/
theorem serve_done_cases {s t : State} {input : Input} (h : serve s input = .done t) :
    (s.rst = false ∧ t = { s with din := t.din, log := t.log }) ∨ t = s ∨
      ((∀ a, input ≠ .access a) ∧ t = { s.archReset with rst := t.rst, log := t.log }) := by
  cases input with
  | access a => exact .inl (serveAccess_done h)
  | cutAccess a =>
    simp only [serve, serveCut] at h
    split at h <;> cases h
    exact .inr (.inr ⟨by simp, rfl⟩)
  | rst b =>
    cases h
    unfold serveRst
    split_ifs
    · exact .inr (.inr ⟨by simp, rfl⟩)
    · exact .inr (.inr ⟨by simp, rfl⟩)
    · exact .inr (.inl rfl)
  | powerDown =>
    cases h
    exact .inr (.inr ⟨by simp, rfl⟩)

end Sys2Proof.Machine

/-! SUPPORT. The registers as the host reads them (R33, R35, R47), and the accesses that reach them. -/

namespace Sys2Proof.Machine

/-- STATUS as a number (R35). -/
theorem State.status_toNat (s : State) : s.status.toNat = 16 * s.mode.bits.toNat + s.code.bits.toNat := by
  have hm := s.mode.bits.isLt
  have hc := s.code.bits.isLt
  rw [State.status, BitVec.toNat_setWidth_of_le (by decide), BitVec.toNat_append,
    ← Nat.shiftLeft_add_eq_or_of_lt hc, Nat.shiftLeft_eq]
  omega

/-- A 64-bit value is its halves (R47). -/
@[simp] theorem joinHalves_halves (v : Word64) : joinHalves (hiHalf v) (loHalf v) = v :=
  BitVec.extractLsb'_append_extractLsb' (w := 32) (len := 32)

@[simp] theorem loHalf_zero : loHalf 0#64 = 0#32 := by decide

@[simp] theorem hiHalf_zero : hiHalf 0#64 = 0#32 := by decide

@[simp] theorem State.resetWith_status (c : Config) : (State.resetWith c).status = 0#32 :=
  show (Mode.unconfigured.bits ++ Code.ok.bits).setWidth 32 = 0#32 by decide

/-- An access of the host, inside the window and outside reset, reaches the core (R41, R54, R151). -/
theorem admitAccess_base_add {s : State} {dir : Dir} {bits off : Nat} {d : Word32} (hr : s.rst = false)
    (hoff : off < 0x40) : admitAccess s ⟨.host, dir, bits, s.cfg.base + off, d⟩ = .ok off :=
  admitAccess_ok.2 ⟨Nat.le_add_right _ _, Nat.add_lt_add_left hoff _, rfl, hr, (Nat.add_sub_cancel_left ..).symm⟩

end Sys2Proof.Machine

/-! SUPPORT. What keeps the invariants of R21. -/

namespace Sys2Proof.Machine

/-- While `rst` is low, the invariants say nothing of DIN, DOUT, CODE, the queue and the record. -/
theorem State.Inv.with_registers {s : State} (h : s.Inv) (hr : s.rst = false) (din dout : Word64) (code : Code)
    (inputs : List Input) (log : List Response) :
    ({ s with din := din, dout := dout, code := code, inputs := inputs, log := log } : State).Inv :=
  { h with inReset := fun hrst => by simp [hr] at hrst }

/-- The queue is no part of the invariants (log 1). -/
theorem State.Inv.setInputs {s : State} (h : s.Inv) (rest : List Input) : (s.setInputs rest).Inv :=
  { h with inReset := fun hrst => congrArg (State.setInputs · rest) (h.inReset hrst) }

/-- R21, R39: a core in reset meets the invariants, whatever the level of `rst` and the record. -/
theorem State.archReset_inv {s : State} (h : s.cfg.wf = true) (b : Bool) (log : List Response) :
    ({ s.archReset with rst := b, log := log } : State).Inv where
  cfgWf := h
  unconfiguredIff := by simp
  capLe := Nat.zero_le _
  tailLt := by simp
  tailZero := by simp
  wcountLe := Nat.zero_le _
  storWf := rfl
  wtsWf := rfl
  wstageWf := rfl
  inReset := fun _ => rfl

section
variable {s : State} (h : s.Inv) (hr : s.rst = false)
include h hr

/-- A new object of an admitted size meets R21 (a) to (c): TAIL is its last slot (R82, R106). -/
theorem State.Inv.newObject {m : Mode} {n : Word16} {wts : Elems} (v : Word64) (hm : m ≠ .unconfigured)
    (hpos : n ≠ 0#16) (hle : n ≤ s.cfg.nMax) (hwts : wts.wf s.nMax = true) :
    ({ s with mode := m, cap := n, tail := n - 1#16, stor := s.stor.fill n.toNat v, wts := wts } : State).Inv :=
  { h with
    unconfiguredIff := by simp [hm, hpos]
    capLe := hle
    tailLt := fun _ => show n - 1#16 < n by bv_omega
    tailZero := fun hu => absurd hu hm
    storWf := Elems.wf_fill v h.storWf (BitVec.le_def.1 hle)
    wtsWf := hwts
    inReset := fun hrst => by simp [hr] at hrst }

/-- A push keeps the invariants: the slot is one of the object's and TAIL moves to it (R88, R110). -/
theorem State.Inv.pushed (hm : s.mode ≠ .unconfigured) : s.pushed.Inv :=
  have ⟨hcap, hmax⟩ := h.phys_range hm 0
  { h with
    tailLt := fun _ => show BitVec.ofNat 16 (s.phys 0) < s.cap by bv_omega
    tailZero := fun hu => absurd hu hm
    storWf := Elems.wf_write s.din h.storWf hmax
    inReset := fun hrst => by simp [State.pushed, hr] at hrst }

/-- Staging keeps the invariants while it stays within N_MAX (R21 (d)). -/
theorem State.Inv.staged {a : Elems} {c : Word16} (ha : a.wf s.nMax = true) (hc : c ≤ s.cfg.nMax) :
    ({ s with wstage := a, wcount := c } : State).Inv :=
  { h with
    wstageWf := ha
    wcountLe := hc
    inReset := fun hrst => by simp [hr] at hrst }

/-- R21: a command that completes OK while `rst` is low keeps the invariants. -/
theorem Completes.inv {i : Instr} {t : State} (hc : Completes i s t) : t.Inv := by
  cases hc with
  | rbinit hpos hle => exact (h.newObject hr _ (by decide) hpos hle h.wtsWf).with_registers hr _ _ _ _ _
  | rblen | rbget | rbpeek | firsize => exact h.with_registers hr _ _ _ _ _
  | rbpush hm | filter hm => exact (h.pushed hr (by simp [hm])).with_registers hr _ _ _ _ _
  | wclr => exact (h.staged (c := 0#16) hr h.wstageWf (Nat.zero_le _)).with_registers hr _ _ _ _ _
  | wload hlt =>
    have hle : s.wcount + 1#16 ≤ s.cfg.nMax := by
      unfold State.nMax at hlt
      bv_omega
    exact (h.staged hr (Elems.wf_write _ h.wstageWf hlt) hle).with_registers hr _ _ _ _ _
  | firinit hpos hle =>
    exact (h.newObject hr _ (by decide) hpos hle (Elems.wf_copyFrom _ h.wtsWf h.wstageWf)).with_registers hr _ _ _ _ _

end

/-- R21: a command word that runs while `rst` is low keeps the invariants. -/
theorem runCommand_inv {w : Word32} {s t : State} (h : s.Inv) (hr : s.rst = false) (hrun : runCommand w s = .next t) :
    t.Inv := by
  obtain ⟨i, -, hexec⟩ | rfl := runCommand_next_cases hrun
  · obtain hc | ⟨-, rfl⟩ := exec_next_cases hexec
    · exact hc.inv h hr
    · exact h.with_registers hr _ _ _ _ _
  · exact h.with_registers hr _ _ _ _ _

/-- A command starts in a state that meets the invariants, with `rst` low. -/
theorem serve_command_inv {s u : State} {input : Input} {w : Word32} (h : s.Inv) (hs : serve s input = .command w u) :
    u.Inv ∧ u.rst = false := by
  obtain ⟨a, rfl, ha⟩ := serve_eq_command hs
  obtain ⟨-, -, hr, -, rfl⟩ := serveAccess_eq_command ha
  exact ⟨h.with_registers hr _ _ _ _ _, hr⟩

end Sys2Proof.Machine

/-! SUPPORT. What keeps two states alike in everything the host can observe (R38). -/

namespace Sys2Proof.Machine

section
variable {s t : State} (h : SameVisible s t)
include h

theorem SameVisible.nMax : s.nMax = t.nMax := congrArg (·.nMax.toNat) h.cfg

theorem SameVisible.phys (i : Nat) : s.phys i = t.phys i := by
  simp only [State.phys, h.tail, h.cap]

/-- The host's registers read alike (R33). -/
theorem SameVisible.readReg (off : Nat) : s.readReg off = t.readReg off := by
  simp only [State.readReg, State.status, h.cfg, h.mode, h.code, h.cap, h.tail, h.wcount, h.din, h.dout]

theorem SameVisible.expectedCode (i : Instr) : expectedCode i s = expectedCode i t := by
  cases i <;> simp only [Machine.expectedCode, argumentErrors, h.mode, h.cfg, h.cap, h.wcount]

theorem SameVisible.admitAccess (a : Access) : admitAccess s a = admitAccess t a := by
  simp only [Machine.admitAccess, h.cfg, h.rst]

theorem SameVisible.setInputs (rest : List Input) : SameVisible (s.setInputs rest) (t.setInputs rest) :=
  { h with inputs := rfl }

theorem SameVisible.respond (r : Response) : SameVisible (s.respond r) (t.respond r) :=
  { h with log := congrArg (· ++ [r]) h.log }

theorem SameVisible.withCode (c : Code) : SameVisible { s with code := c } { t with code := c } :=
  { h with code := rfl }

theorem SameVisible.withDout {v v' : Word64} (hv : v = v') :
    SameVisible { s with dout := v, code := .ok } { t with dout := v', code := .ok } :=
  { h with dout := hv, code := rfl }

/-- A core in reset shows nothing of what it held (R39). -/
theorem SameVisible.archReset (b : Bool) : SameVisible (s.archReset.setRst b) (t.archReset.setRst b) :=
  { h with
    mode := rfl, cap := rfl, tail := rfl, wcount := rfl, din := rfl, dout := rfl, code := rfl, rst := rfl
    stor := fun _ _ => rfl, wts := fun _ _ _ => rfl, wstage := fun _ _ => rfl }

theorem SameVisible.writeReg (off : Nat) (v : Word32) : SameVisible (s.writeReg off v) (t.writeReg off v) := by
  unfold State.writeReg
  split
  · exact { h with din := congrArg (fun d => joinHalves (hiHalf d) v) h.din }
  · exact { h with din := congrArg (fun d => joinHalves v (loHalf d)) h.din }
  · exact h

/-- The element primitives answer alike: where a read is in range, it is of a visible position (R51). -/
theorem SameVisible.storRead (p : Nat) : s.storRead p = t.storRead p := by
  unfold State.storRead
  rw [← h.cap, ← h.nMax]
  split_ifs with hp
  · rw [h.stor p hp.1]
  · rfl

theorem SameVisible.wtsRead (p : Nat) : s.wtsRead p = t.wtsRead p := by
  unfold State.wtsRead
  rw [← h.mode, ← h.cap, ← h.nMax]
  split_ifs with hp
  · rw [h.wts hp.1 p hp.2.1]
  · rfl

theorem SameVisible.macUpTo (n : Nat) : s.macUpTo n = t.macUpTo n := by
  induction n with
  | zero => rfl
  | succ n ih =>
    have hstep : s.macStep n = t.macStep n := funext fun acc => by
      simp only [State.macStep, h.wtsRead, h.phys, h.storRead]
    rw [State.macUpTo, State.macUpTo, ih, hstep]

end

/-- A new object shows only what was written into it (R82, R106). -/
theorem SameVisible.newObject {s t : State} (h : SameVisible s t) (m : Mode) (n : Word16) {v v' : Word64} (hv : v = v')
    (a b : Elems) (hab : m = .fir → ∀ p, p < n.toNat → a.read p = b.read p) :
    SameVisible
      { s with mode := m, cap := n, tail := n - 1#16, stor := s.stor.fill n.toNat v, wts := a, code := .ok }
      { t with mode := m, cap := n, tail := n - 1#16, stor := t.stor.fill n.toNat v', wts := b, code := .ok } :=
  { h with
    mode := rfl, cap := rfl, tail := rfl, code := rfl
    stor := fun p (hp : p < n.toNat) => by simp only [Elems.read_fill, if_pos hp, hv]
    wts := hab }

/-- The same write at the same place leaves two canonical arrays alike where they were. -/
theorem Elems.read_write_congr {size size' p q : Nat} {a b : Elems} (v : Word64) (ha : a.wf size = true)
    (hb : b.wf size' = true) (hq : q ≠ p → a.read q = b.read q) : (a.write p v).read q = (b.write p v).read q := by
  rw [Elems.read_write ha, Elems.read_write hb]
  split_ifs with he
  · rfl
  · exact hq he

section
variable {s t : State} (hs : s.Inv) (ht : t.Inv) (h : SameVisible s t)
include hs ht h

theorem SameVisible.pushed : SameVisible s.pushed t.pushed :=
  { h with
    tail := congrArg (BitVec.ofNat 16) (h.phys 0)
    stor := fun p hp => by
      simp only [State.pushed, ← h.phys, ← h.din]
      exact Elems.read_write_congr _ hs.storWf ht.storWf fun _ => h.stor p hp }

theorem SameVisible.staged (hlt : s.wcount.toNat < s.nMax) : SameVisible
    { s with wstage := s.wstage.write s.wcount.toNat s.din, wcount := s.wcount + 1#16 }
    { t with wstage := t.wstage.write t.wcount.toNat t.din, wcount := t.wcount + 1#16 } :=
  { h with
    wcount := congrArg (· + 1#16) h.wcount
    wstage := fun p (hp : p < (s.wcount + 1#16).toNat) => by
      rw [← h.wcount, ← h.din]
      refine Elems.read_write_congr _ hs.wstageWf ht.wstageWf fun hne => h.wstage p ?_
      unfold State.nMax at hlt
      bv_omega }

/-- R38 for a command that completes OK. -/
theorem SameVisible.completes {i : Instr} {s' : State} (hc : Completes i s s') :
    ∃ t', Completes i t t' ∧ SameVisible s' t' := by
  have hslot (p : Nat) (hp : p < s.cap.toNat ∧ p < s.nMax) : p < t.cap.toNat ∧ p < t.nMax := by
    rwa [← h.cap, ← h.nMax]
  have hzext : s.cap.setWidth 64 = t.cap.setWidth 64 := by rw [h.cap]
  cases hc with
  | @rbinit _ n hpos hle =>
    exact ⟨_, .rbinit hpos (h.cfg ▸ hle), h.newObject .ring n h.din s.wts t.wts (fun hm => by cases hm)⟩
  | rblen hm => exact ⟨_, .rblen (h.mode ▸ hm), h.withDout hzext⟩
  | rbget hm hp =>
    exact ⟨_, .rbget (h.mode ▸ hm) (h.phys _ ▸ hslot _ hp), h.withDout (h.phys _ ▸ h.stor _ hp.1)⟩
  | rbpush hm hp =>
    exact ⟨_, .rbpush (h.mode ▸ hm) (h.phys _ ▸ hslot _ hp), (h.pushed hs ht).withDout (h.phys _ ▸ h.stor _ hp.1)⟩
  | rbpeek hm hp => exact ⟨_, .rbpeek (h.mode ▸ hm) (hslot _ hp), h.withDout (h.stor _ hp.1)⟩
  | wclr =>
    exact ⟨_, .wclr, { h with wcount := rfl, code := rfl, wstage := fun _ hp => absurd hp (Nat.not_lt_zero _) }⟩
  | wload hlt => exact ⟨_, .wload (by rwa [← h.wcount, ← h.nMax]), (h.staged hs ht hlt).withCode .ok⟩
  | @firinit _ n hpos hle hw =>
    refine ⟨_, .firinit hpos (h.cfg ▸ hle) (h.wcount ▸ hw), h.newObject .fir n rfl (s.wts.copyFrom s.wstage n.toNat)
      (t.wts.copyFrom t.wstage n.toNat) fun _ p hp => ?_⟩
    rw [Elems.read_copyFrom, Elems.read_copyFrom, if_pos hp, if_pos hp, h.wstage p (hw ▸ hp)]
  | firsize hm => exact ⟨_, .firsize (h.mode ▸ hm), h.withDout hzext⟩
  | filter hm hp hacc =>
    have hpush := h.pushed hs ht
    rw [hpush.macUpTo, h.cap] at hacc
    exact ⟨_, .filter (h.mode ▸ hm) (h.phys _ ▸ hslot _ hp) hacc, hpush.withDout rfl⟩

/-- R38 for a command word. -/
theorem SameVisible.runCommand {w : Word32} {s' : State} (hrun : runCommand w s = .next s') :
    ∃ t', runCommand w t = .next t' ∧ SameVisible s' t' := by
  unfold Machine.runCommand at hrun ⊢
  cases hw : decode w with
  | error e =>
    simp only [hw] at hrun ⊢
    cases hrun
    exact ⟨_, rfl, h.withCode _⟩
  | ok i =>
    simp only [hw] at hrun ⊢
    obtain hc | ⟨hne, rfl⟩ := exec_next_cases hrun
    · obtain ⟨t', hc', hst⟩ := h.completes hs ht hc
      exact ⟨t', exec_of_completes hc', hst⟩
    · rw [h.expectedCode] at hne ⊢
      exact ⟨_, exec_of_expectedCode hne, h.withCode _⟩

end

/-- What serving an interaction came to is the same, in states that show the same. -/
inductive SameServed : Served → Served → Prop where
  | done {s t : State} (h : SameVisible s t) : SameServed (.done s) (.done t)
  | command (w : Word32) {s t : State} (h : SameVisible s t) : SameServed (.command w s) (.command w t)
  | refuse (r : Refusal) : SameServed (.refuse r) (.refuse r)

section
variable {s t : State} (h : SameVisible s t)
include h

theorem SameVisible.serveAccess (a : Access) : SameServed (serveAccess s a) (serveAccess t a) := by
  cases has : Machine.admitAccess s a with
  | error r =>
    rw [serveAccess_refused has, serveAccess_refused (h.admitAccess a ▸ has)]
    exact .refuse r
  | ok off =>
    have hat : Machine.admitAccess t a = .ok off := h.admitAccess a ▸ has
    cases hal : aligned32 a off with
    | false =>
      rw [serveAccess_busError has hal, serveAccess_busError hat hal]
      exact .done (h.respond _)
    | true =>
      cases hd : a.dir with
      | read =>
        rw [serveAccess_read has hal hd, serveAccess_read hat hal hd, h.readReg]
        exact .done (h.respond _)
      | write =>
        by_cases hc : off = cmdOffset
        · subst hc
          rw [serveAccess_command has hal hd, serveAccess_command hat hal hd]
          exact .command _ (h.respond _)
        · rw [serveAccess_write has hal hd hc, serveAccess_write hat hal hd hc]
          exact .done ((h.writeReg off _).respond _)

theorem SameVisible.serve (input : Input) : SameServed (serve s input) (serve t input) := by
  cases input with
  | access a => exact h.serveAccess a
  | cutAccess a =>
    simp only [Machine.serve, serveCut]
    rw [← h.admitAccess]
    cases Machine.admitAccess s a with
    | error r => exact .refuse r
    | ok off => exact .done ((h.archReset true).respond _)
  | rst b =>
    refine .done ?_
    unfold serveRst
    rw [← h.rst]
    split_ifs
    · exact h.archReset true
    · exact h.archReset false
    · exact h
  | powerDown =>
    have hreset := h.archReset s.rst
    exact .done { hreset with rst := h.rst }

end

end Sys2Proof.Machine

/-! The settled statements about the state. -/

namespace Sys2Proof.Machine

/-- Settles O20: an interaction served to its end either leaves R21's elements alone or resets them, and a command
keeps them whether it completes OK or reports a code. -/
theorem stepKeepsInvariants : Obligations.StepKeepsInvariants := by
  intro s t h hstep
  obtain rfl | ⟨input, rest, -, hdone | ⟨w, u, hcmd, hrun⟩⟩ := step_next_cases hstep
  · exact h
  · have hq : (s.setInputs rest).Inv := h.setInputs rest
    obtain ⟨hr, ht⟩ | rfl | ⟨-, ht⟩ := serve_done_cases hdone
    · rw [ht]
      exact hq.with_registers hr _ _ _ _ _
    · exact hq
    · rw [ht]
      exact State.archReset_inv hq.cfgWf _ _
  · obtain ⟨hu, hr⟩ := serve_command_inv (h.setInputs rest) hcmd
    exact runCommand_inv hu hr hrun

/-- Settles O29: both states serve the interaction alike, and every element access that is in range is of a visible
position. -/
theorem hiddenStateIsUnobservable : Obligations.HiddenStateIsUnobservable := by
  intro s t hs ht h
  cases hin : s.inputs with
  | nil =>
    rw [step_idle hin, step_idle (h.inputs ▸ hin)]
    exact ⟨fun s' he => ⟨t, rfl, by cases he; exact h⟩, fun r he => by cases he⟩
  | cons input rest =>
    have hin' : t.inputs = input :: rest := h.inputs ▸ hin
    have hserved := (h.setInputs rest).serve input
    generalize hsv : serve (s.setInputs rest) input = x, htv : serve (t.setInputs rest) input = y at hserved
    cases hserved with
    | done hst =>
      rw [step_done hin hsv, step_done hin' htv]
      exact ⟨fun s' he => ⟨_, rfl, by cases he; exact hst⟩, fun r he => by cases he⟩
    | command w hst =>
      rw [step_command hin hsv, step_command hin' htv]
      obtain ⟨hus, -⟩ := serve_command_inv (hs.setInputs rest) hsv
      obtain ⟨hut, -⟩ := serve_command_inv (ht.setInputs rest) htv
      exact ⟨fun s' hrun => hst.runCommand hus hut hrun, fun r hrun => absurd hrun (runCommand_ne_refused w _ r)⟩
    | refuse r =>
      rw [step_refuse hin hsv, step_refuse hin' htv]
      exact ⟨fun s' he => (by cases he), fun r' he => he⟩

/-- Settles O10, register by register. -/
theorem registerMapReads : Obligations.RegisterMapReads := by
  intro s
  have hzext (n : Word16) : (n.setWidth 32).toNat = n.toNat := BitVec.toNat_setWidth_of_le (by decide)
  refine ⟨hzext _, s.status_toNat, rfl, hzext _, hzext _, hzext _, joinHalves_halves _, joinHalves_halves _, ?_⟩
  simp [State.readReg]

/-- Settles O26: a command that reports a code changes CODE alone, and `Completes` shows the writes of one that
completes OK. -/
theorem writersOfEachElement : Obligations.WritersOfEachElement := by
  intro i s t h
  obtain hc | ⟨-, rfl⟩ := exec_next_cases h
  · cases hc <;> simp [State.pushed]
  · simp

/-- Settles O28: an access served to its end keeps CAP and MODE, and of the commands only RBINIT and FIRINIT write them
(`writersOfEachElement`). -/
theorem capChangesOnlyOnConstructionOrReset : Obligations.CapChangesOnlyOnConstructionOrReset := by
  intro s t hstep hchange
  obtain rfl | ⟨input, rest, hin, hdone | ⟨w, u, hcmd, hrun⟩⟩ := step_next_cases hstep
  · simp at hchange
  · obtain ⟨-, ht⟩ | rfl | ⟨hna, ht⟩ := serve_done_cases hdone
    · rw [ht] at hchange
      simp at hchange
    · simp at hchange
    · exact .inl ⟨by rw [ht]; rfl, input, rest, hin, hna⟩
  · obtain ⟨a, rfl, ha⟩ := serve_eq_command hcmd
    obtain ⟨hd, haddr, -, rfl, rfl⟩ := serveAccess_eq_command ha
    obtain ⟨i, hi, hexec⟩ | rfl := runCommand_next_cases hrun
    · obtain ⟨-, -, -, -, -, -, -, -, -, hbuild, -⟩ := writersOfEachElement i _ t hexec
      obtain ⟨⟨n, rfl⟩ | ⟨n, rfl⟩, hok⟩ := hbuild hchange
      · exact .inr ⟨hok, a, rest, n, hin, hd, haddr, .inl hi⟩
      · exact .inr ⟨hok, a, rest, n, hin, hd, haddr, .inr hi⟩
    · simp at hchange

/-- Settles O8: the write reaches CMD, and decoding decides what runs. -/
theorem stepRunsTheDecodedCommand : Obligations.StepRunsTheDecodedCommand := by
  intro s w rest hin hr
  have hserve : serve (s.setInputs rest) (.access ⟨.host, .write, 32, s.cfg.base + 0x08, w⟩) =
      .command w ((s.setInputs rest).respond .ack) :=
    serveAccess_command (admitAccess_base_add (s := s.setInputs rest) hr (by decide)) rfl rfl
  rw [step_command hin hserve, runCommand]
  exact ⟨fun i hi => by rw [hi], fun e he => by rw [he]; rfl⟩

/-- Settles O9: the read is admitted and aligned. -/
theorem readAnswersAndChangesNothing : Obligations.ReadAnswersAndChangesNothing := by
  intro s off d rest hin hr hoff halign
  refine step_done hin ?_
  exact serveAccess_read (admitAccess_base_add (s := s.setInputs rest) hr hoff) (by simp [aligned32, halign]) rfl

/-- Settles O11 from the concatenation MODE, CODE that STATUS extends with zeros. -/
theorem statusRegisterLayout : Obligations.StatusRegisterLayout := by
  intro s
  refine ⟨?_, ?_, ?_, ?_, ?_⟩
  · rw [State.status, BitVec.extractLsb'_setWidth_of_le (by decide), BitVec.extractLsb'_append_eq_right]
  · rw [State.status, BitVec.extractLsb'_setWidth_of_le (by decide), BitVec.extractLsb'_append_eq_left]
  · rw [State.status, BitVec.extractLsb'_setWidth_of_le (by decide)]
    ext i hi
    simp
  · cases s.code <;> decide
  · cases s.mode <;> decide

/-- Settles O15, offset by offset. -/
theorem resetRegisterValues : Obligations.ResetRegisterValues := by
  intro c
  refine ⟨rfl, rfl, rfl, rfl, rfl, rfl, rfl, rfl, fun off => ?_⟩
  unfold State.readReg
  split <;> simp_all

/-- Settles O19: the reset state is a core in reset with `rst` low and nothing recorded. -/
theorem resetMeetsInvariants : Obligations.ResetMeetsInvariants :=
  fun c h => ⟨State.archReset_inv (s := State.resetWith c) h false [], rfl, rfl⟩

end Sys2Proof.Machine

/-! SUPPORT. Byte lanes and halves (R47), and what a register write makes of DIN (R48). -/

namespace Sys2Proof

/-- Bit j of lane k is bit 8k+j of the register (R47). -/
theorem laneOf_getLsbD (v : Word32) (k : Nat) {j : Nat} (hj : j < 8) :
    (laneOf v k).getLsbD j = v.getLsbD (8 * k + j) := by
  simp [laneOf, hj]

/-- A register is its four lanes, the one at the highest address first (R47). -/
theorem lanes_append (v : Word32) : laneOf v 3 ++ laneOf v 2 ++ laneOf v 1 ++ laneOf v 0 = v := by
  ext i hi
  simp only [laneOf, BitVec.getElem_append, BitVec.getElem_extractLsb']
  rw [← BitVec.getLsbD_eq_getElem hi]
  split_ifs <;> congr 1 <;> omega

theorem ofLanes_lanesOf (v : Word32) : ofLanes (lanesOf v) = some v := congrArg some (lanes_append v)

end Sys2Proof

namespace Sys2Proof.Machine

theorem loHalf_toNat (v : Word64) : (loHalf v).toNat = v.toNat % 2 ^ 32 := by
  simp [loHalf, BitVec.extractLsb'_toNat]

theorem hiHalf_toNat (v : Word64) : (hiHalf v).toNat = v.toNat / 2 ^ 32 := by
  rw [hiHalf, BitVec.extractLsb'_toNat, Nat.shiftRight_eq_div_pow]
  exact Nat.mod_eq_of_lt (by omega)

/-- Of the offsets, only DIN_LO writes the LO half of DIN (R48). -/
theorem State.loHalf_writeReg_din (s : State) (off : Nat) (v : Word32) :
    loHalf (s.writeReg off v).din = if off = 0x18 then v else loHalf s.din := by
  unfold State.writeReg
  split
  · simp
  · simp
  next hlo _ => rw [if_neg hlo]

/-- Of the offsets, only DIN_HI writes the HI half of DIN (R48). -/
theorem State.hiHalf_writeReg_din (s : State) (off : Nat) (v : Word32) :
    hiHalf (s.writeReg off v).din = if off = 0x1C then v else hiHalf s.din := by
  unfold State.writeReg
  split
  · simp
  · simp
  next _ hhi => rw [if_neg hhi]

end Sys2Proof.Machine

/-! SUPPORT. What the port rejects (R44) and what it refuses (R41, R54, R151). -/

namespace Sys2Proof.Machine

/-- A bus error is a fault of the run (R44, R136). -/
@[simp] theorem busError_isFault (d : Dir) : (busError d).isFault = true := by
  cases d <;> rfl

/-- The port carries out no access that is not 32 bits wide or not aligned (R42, R43). -/
theorem aligned32_eq_false {a : Access} {off : Nat} : aligned32 a off = false ↔ a.bits ≠ 32 ∨ off % 4 ≠ 0 := by
  simp [aligned32, ← not_and_or]

section
variable {s : State} {a : Access}

theorem admitAccess_outsideWindow (h : ¬(s.cfg.base ≤ a.addr ∧ a.addr < s.cfg.base + 0x40)) :
    admitAccess s a = .error .outsideWindow := by
  simp [admitAccess, windowOffset, h]

theorem admitAccess_secondHost (hlo : s.cfg.base ≤ a.addr) (hhi : a.addr < s.cfg.base + 0x40)
    (hm : a.master = .other) : admitAccess s a = .error .secondHost := by
  simp [admitAccess, windowOffset, hlo, hhi, hm]

theorem admitAccess_accessInReset (hlo : s.cfg.base ≤ a.addr) (hhi : a.addr < s.cfg.base + 0x40)
    (hm : a.master = .host) (hr : s.rst = true) : admitAccess s a = .error .accessInReset := by
  simp [admitAccess, windowOffset, hlo, hhi, hm, hr]

/-- Only the admission of an access refuses it: once admitted, it is served. -/
theorem serveAccess_eq_refuse {r : Refusal} (h : serveAccess s a = .refuse r) : admitAccess s a = .error r := by
  cases ha : admitAccess s a with
  | error r' =>
    cases (serveAccess_refused ha).symm.trans h
    rfl
  | ok off =>
    obtain hs | ⟨-, -, hs⟩ | hs | hs := serveAccess_cases ha <;> cases hs.symm.trans h

/-- Only an access, cut or not, is refused, and only by its admission. -/
theorem serve_eq_refuse {input : Input} {r : Refusal} (h : serve s input = .refuse r) :
    ∃ a, (input = .access a ∨ input = .cutAccess a) ∧ admitAccess s a = .error r := by
  cases input with
  | access a => exact ⟨a, .inl rfl, serveAccess_eq_refuse h⟩
  | cutAccess a =>
    refine ⟨a, .inr rfl, ?_⟩
    simp only [serve, serveCut] at h
    split at h
    next r' ha => cases h; exact ha
    next => cases h
  | rst b => cases h
  | powerDown => cases h

/-- A step that meets an access its admission refuses. -/
theorem step_refused_of_admitAccess {rest : List Input} {r : Refusal} (hin : s.inputs = .access a :: rest)
    (h : admitAccess s a = .error r) : step s = .refused r :=
  step_refuse hin (serveAccess_refused (s := s.setInputs rest) h)

end

end Sys2Proof.Machine

/-! SUPPORT. Every element access is in range (R51): from a state that meets R21, every command answers a next state. -/

namespace Sys2Proof.Machine

section
variable {s : State} {body : Result}

/-- A command that needs an object answers if it does with one (R81). -/
theorem needObject_answers (h : s.mode ≠ .unconfigured → ∃ t, body = .next t) : ∃ t, needObject s body = .next t := by
  by_cases hm : s.mode = .unconfigured
  · exact ⟨_, needObject_next.2 (.inl ⟨hm, rfl⟩)⟩
  · obtain ⟨t, ht⟩ := h hm
    exact ⟨t, needObject_next.2 (.inr ⟨hm, ht⟩)⟩

/-- A command that needs a ring buffer answers if it does with one (R81). -/
theorem needRing_answers (h : s.mode = .ring → ∃ t, body = .next t) : ∃ t, needRing s body = .next t := by
  cases hm : s.mode with
  | unconfigured => exact ⟨_, needRing_next.2 (.inl ⟨hm, rfl⟩)⟩
  | fir => exact ⟨_, needRing_next.2 (.inr (.inl ⟨hm, rfl⟩))⟩
  | ring =>
    obtain ⟨t, ht⟩ := h hm
    exact ⟨t, needRing_next.2 (.inr (.inr ⟨hm, ht⟩))⟩

/-- A command that needs a filter answers if it does with one (R101). -/
theorem needFir_answers (h : s.mode = .fir → ∃ t, body = .next t) : ∃ t, needFir s body = .next t := by
  cases hm : s.mode with
  | unconfigured => exact ⟨_, needFir_next.2 (.inl ⟨hm, rfl⟩)⟩
  | ring => exact ⟨_, needFir_next.2 (.inr (.inl ⟨hm, rfl⟩))⟩
  | fir =>
    obtain ⟨t, ht⟩ := h hm
    exact ⟨t, needFir_next.2 (.inr (.inr ⟨hm, ht⟩))⟩

end

section
variable {s : State} (h : s.Inv)
include h

/-- WLOAD writes within the staging array unless it is full (R21 (d), R51). -/
theorem State.Inv.wcount_lt (hne : s.wcount ≠ s.cfg.nMax) : s.wcount.toNat < s.nMax :=
  BitVec.lt_def.1 (BitVec.lt_of_le_ne h.wcountLe hne)

/-- The multiply-accumulate loop of FILTER stays in range after the push (R51, R110). -/
theorem State.Inv.macUpTo_pushed (hm : s.mode = .fir) : ∃ acc, s.pushed.macUpTo s.cap.toNat = .ok acc :=
  have ⟨_, hmax⟩ := h.cap_range (by simp [hm])
  ⟨_, State.macUpTo_eq (s := s.pushed) hm hmax le_rfl⟩

/-- R51: every command answers a next state. -/
theorem State.Inv.exec_answers (i : Instr) : ∃ t, exec i s = .next t := by
  cases i with
  | rbinit n =>
    simp only [exec, execRbinit]
    split_ifs <;> exact ⟨_, rfl⟩
  | rblen => exact needObject_answers fun _ => ⟨_, rfl⟩
  | rbget n => exact needObject_answers fun hm => ⟨_, finish_storRead_next.2 ⟨h.phys_range hm _, rfl⟩⟩
  | rbpush => exact needRing_answers fun hm => ⟨_, finish_push_next.2 ⟨h.phys_range (by simp [hm]) 0, rfl⟩⟩
  | rbpeek p =>
    refine needObject_answers fun hm => ?_
    split_ifs with hle
    · exact ⟨_, rfl⟩
    · have hlt : p.toNat < s.cap.toNat := BitVec.lt_def.1 (BitVec.not_le.1 hle)
      exact ⟨_, finish_storRead_next.2 ⟨⟨hlt, hlt.trans_le (h.cap_range hm).2⟩, rfl⟩⟩
  | wclr => exact ⟨_, rfl⟩
  | wload =>
    simp only [exec, execWload]
    split_ifs with hfull
    · exact ⟨_, rfl⟩
    · exact ⟨_, finish_next.2 ⟨_, State.wstageAppend_ok.2 ⟨h.wcount_lt hfull, rfl⟩, rfl⟩⟩
  | firinit n =>
    simp only [exec, execFirinit]
    split_ifs <;> exact ⟨_, rfl⟩
  | firsize => exact needFir_answers fun _ => ⟨_, rfl⟩
  | filter =>
    refine needFir_answers fun hm => ?_
    obtain ⟨acc, hacc⟩ := h.macUpTo_pushed hm
    exact ⟨_, finish_filter_next.2 ⟨h.phys_range (by simp [hm]) 0, acc, hacc, rfl⟩⟩

/-- R51, R65: every word answers a next state, whether it encodes a command or not. -/
theorem State.Inv.runCommand_answers (w : Word32) : ∃ t, runCommand w s = .next t := by
  unfold runCommand
  split
  · exact h.exec_answers _
  · exact ⟨_, rfl⟩

/-- A step answers a next state, unless it serves an access that its admission refuses. -/
theorem State.Inv.step_answers_or_refuses :
    (∃ t, step s = .next t) ∨
      ∃ a rest r, (s.inputs = .access a :: rest ∨ s.inputs = .cutAccess a :: rest) ∧
        admitAccess s a = .error r ∧ step s = .refused r := by
  cases hin : s.inputs with
  | nil => exact .inl ⟨s, step_idle hin⟩
  | cons input rest =>
    cases hs : serve (s.setInputs rest) input with
    | done t => exact .inl ⟨t, step_done hin hs⟩
    | command w u =>
      rw [step_command hin hs]
      exact .inl ((serve_command_inv (h.setInputs rest) hs).1.runCommand_answers w)
    | refuse r =>
      obtain ⟨a, ha, hadmit⟩ := serve_eq_refuse hs
      exact .inr ⟨a, rest, r, ha.imp (congrArg (· :: rest)) (congrArg (· :: rest)), hadmit, step_refuse hin hs⟩

end

end Sys2Proof.Machine

/-! The settled statements about the register port and the accesses that reach it. -/

namespace Sys2Proof.Machine

/-- Settles O7: lanes and halves are fields of the value, and put together they cover it. -/
theorem lanesAndHalvesRebuildTheValue : Obligations.LanesAndHalvesRebuildTheValue :=
  ⟨ofLanes_lanesOf, fun v k _ _ hj => laneOf_getLsbD v k hj,
    fun v => ⟨joinHalves_halves v, loHalf_toNat v, hiHalf_toNat v⟩⟩

/-- Settles O12: the write is admitted and aligned, and starts no command. -/
theorem writesChangeOnlyDinHalves : Obligations.WritesChangeOnlyDinHalves := by
  intro s off v rest hin hr hoff halign hcmd
  have hadmit := admitAccess_base_add (s := s.setInputs rest) (dir := .write) (bits := 32) (d := v) hr hoff
  have hserve := serveAccess_write hadmit (by simp [aligned32, halign]) rfl hcmd
  refine ⟨_, step_done hin hserve, ?_, State.loHalf_writeReg_din _ off v, State.hiHalf_writeReg_din _ off v⟩
  rw [State.writeReg_eq]
  rfl

/-- Settles O21: the invariants keep every element access in range. -/
theorem everyCommandWordCompletes : Obligations.EveryCommandWordCompletes :=
  fun _ w h => h.runCommand_answers w

/-- Settles O22: no command faults (R51), and the port refuses only what its host, its window and `rst` rule out. -/
theorem admittedInteractionsAreServed : Obligations.AdmittedInteractionsAreServed := by
  intro s h
  obtain ⟨t, ht⟩ | ⟨a, queue, r, hin, hrefused, hstep⟩ := h.step_answers_or_refuses
  · exact ⟨fun f hf => by simp [ht] at hf, fun _ _ _ _ => ⟨t, ht⟩⟩
  · refine ⟨fun f hf => by simp [hstep] at hf, fun input rest hin' hduties => ?_⟩
    have hinput : input = .access a ∨ input = .cutAccess a := by
      rw [hin'] at hin
      exact hin.imp (List.cons.inj · |>.1) (List.cons.inj · |>.1)
    obtain ⟨hm, hlo, hhi, hr⟩ := hduties a hinput
    have hadmitted : admitAccess s a = .ok (a.addr - s.cfg.base) := admitAccess_ok.2 ⟨hlo, hhi, hm, hr, rfl⟩
    cases hrefused.symm.trans hadmitted

/-- Settles O13: the access is admitted and rejected, and the bus error is its only trace. -/
theorem busErrorChangesNothing : Obligations.BusErrorChangesNothing := by
  intro s d bits off v rest hin hr hoff hbad
  have hadmit := admitAccess_base_add (s := s.setInputs rest) (dir := d) (bits := bits) (d := v) hr hoff
  have hserve := serveAccess_busError hadmit (aligned32_eq_false.2 hbad)
  refine ⟨_, busError d, step_done hin hserve, rfl, busError_isFault d, ?_, ?_⟩
  · cases d <;> rfl
  · simp [State.faultRecorded]

/-- Settles O14: the three errors of the admission, in its order. -/
theorem accessesOutsideTheContractRefused : Obligations.AccessesOutsideTheContractRefused :=
  fun _ _ _ hin =>
    ⟨fun hout => step_refused_of_admitAccess hin (admitAccess_outsideWindow hout),
      fun hlo hhi =>
        ⟨fun hm => step_refused_of_admitAccess hin (admitAccess_secondHost hlo hhi hm),
          fun hm hr => step_refused_of_admitAccess hin (admitAccess_accessInReset hlo hhi hm hr)⟩⟩

end Sys2Proof.Machine

/-! SUPPORT. Command words (R60 to R65): what a row of the opcode map selects and encodes, said of the fields, and what
the decoder and the run of a word make of it. -/

namespace Sys2Proof
open Laws.EncodedFields

/-- The columns of R63: a row's match holds its OP alone, and its mask frees ARG exactly where ARG is an operand. -/
theorem opcodeMap_columns : ∀ r ∈ opcodeMap, rsvdOf r.pattern = 0x00#8 ∧ argOf r.pattern = 0x0000#16 ∧
    r.mask = if opOf r.pattern ∈ Machine.noArgOps then 0xFFFFFFFF#32 else 0xFFFF0000#32 := by decide

theorem opcodeMap_ops : opcodeMap.map (opOf ·.pattern) = Machine.assignedOps := by decide

theorem assignedOps_nodup : Machine.assignedOps.Nodup := by decide

/-- A row selects the words with its OP, RSVD = 0, and ARG = 0 where the command has none (R62 to R64). -/
theorem selects_iff_fields {r : OpcodeRow} (hr : r ∈ opcodeMap) {w : Word32} :
    r.selects w = true ↔ opOf w = opOf r.pattern ∧ rsvdOf w = 0x00#8 ∧
      (opOf r.pattern ∈ Machine.noArgOps → argOf w = 0x0000#16) := by
  obtain ⟨hrsvd, harg, hmask⟩ := opcodeMap_columns r hr
  rw [selects_iff, hmask]
  split_ifs with hop
  · rw [full_mask_eq, word_eq_iff, hrsvd, harg]
    simp [hop]
  · rw [masked_eq_iff harg, hrsvd]
    simp [hop]

/-- At most one row selects a word: the rows have different OP values (R64). -/
theorem selects_unique {r r' : OpcodeRow} (hr : r ∈ opcodeMap) (hr' : r' ∈ opcodeMap) {w : Word32}
    (h : r.selects w = true) (h' : r'.selects w = true) : r = r' := by
  have hop : opOf r.pattern = opOf r'.pattern :=
    ((selects_iff_fields hr).1 h).1.symm.trans ((selects_iff_fields hr').1 h').1
  exact List.inj_on_of_nodup_map (opcodeMap_ops ▸ assignedOps_nodup) hr hr' hop

/-- The words that some row selects, said of the fields (R62 to R64). -/
theorem exists_selects_iff {w : Word32} :
    (∃ r ∈ opcodeMap, r.selects w = true) ↔ opOf w ∈ Machine.assignedOps ∧ rsvdOf w = 0x00#8 ∧
      (opOf w ∈ Machine.noArgOps → argOf w = 0x0000#16) := by
  rw [← opcodeMap_ops, List.mem_map]
  constructor
  · rintro ⟨r, hr, hsel⟩
    obtain ⟨hop, hrsvd, harg⟩ := (selects_iff_fields hr).1 hsel
    exact ⟨⟨r, hr, hop.symm⟩, hrsvd, hop ▸ harg⟩
  · rintro ⟨⟨r, hr, hop⟩, hrsvd, harg⟩
    exact ⟨r, hr, (selects_iff_fields hr).2 ⟨hop.symm, hrsvd, hop ▸ harg⟩⟩

theorem encode_eq_commandWord (i : Instr) : encode i = commandWord (op i) (arg i) := by
  cases i <;> rfl

theorem argOf_encode (i : Instr) : argOf (encode i) = arg i := by
  rw [encode_eq_commandWord]
  exact (commandWord_fields _ _).2.2

/-- A row's command is encoded with the row's OP, and with the operand where it has one (R62, R63). -/
theorem encode_build {r : OpcodeRow} (hr : r ∈ opcodeMap) (n : Word16) :
    encode (r.build n) = commandWord (opOf r.pattern) (if opOf r.pattern ∈ Machine.noArgOps then 0x0000#16 else n) := by
  revert r
  simp only [opcodeMap, List.forall_mem_cons]
  exact ⟨rfl, rfl, rfl, rfl, rfl, rfl, rfl, rfl, rfl, rfl, by simp⟩

theorem commandWord_eq_iff {o : BitVec 8} {n : Word16} {w : Word32} :
    commandWord o n = w ↔ opOf w = o ∧ rsvdOf w = 0x00#8 ∧ argOf w = n := by
  obtain ⟨ho, hr, ha⟩ := commandWord_fields o n
  rw [eq_comm, word_eq_iff, ho, hr, ha]

/-- A row selects a word exactly if the word encodes the row's command with the word's ARG. -/
theorem selects_iff_encode {r : OpcodeRow} (hr : r ∈ opcodeMap) {w : Word32} :
    r.selects w = true ↔ encode (r.build (argOf w)) = w := by
  rw [selects_iff_fields hr, encode_build hr, commandWord_eq_iff]
  split_ifs with hop <;> simp [hop]

/-- Each command is the command of a row, with its own argument (R63). -/
theorem exists_row (i : Instr) : ∃ r ∈ opcodeMap, r.build (arg i) = i := by
  cases i <;> simp [opcodeMap, arg]

/-- The row that selects a word decides what the word decodes to (R64). -/
theorem decode_of_selects {r : OpcodeRow} (hr : r ∈ opcodeMap) {w : Word32} (h : r.selects w = true) :
    decode w = .ok (r.build (argOf w)) := by
  have hsome : (opcodeMap.find? (·.selects w)).isSome := List.find?_isSome.2 ⟨r, hr, h⟩
  obtain ⟨r', hfind⟩ := Option.isSome_iff_exists.1 hsome
  have hsel := List.find?_some hfind
  have hrr' : r = r' := selects_unique hr (List.mem_of_find?_eq_some hfind) h hsel
  rw [decode, hfind, hrr']

theorem decode_of_no_row {w : Word32} (h : ∀ r ∈ opcodeMap, r.selects w = false) :
    decode w = .error (whyIllegal w) := by
  have hnone : opcodeMap.find? (·.selects w) = none := List.find?_eq_none.2 fun r hr => by simp [h r hr]
  rw [decode, hnone]

/-- A word decodes to a command only by a row that selects it (R64, R65). -/
theorem exists_row_of_decode {w : Word32} {i : Instr} (h : decode w = .ok i) :
    ∃ r ∈ opcodeMap, r.selects w = true ∧ r.build (argOf w) = i := by
  by_cases hrow : ∃ r ∈ opcodeMap, r.selects w = true
  · obtain ⟨r, hr, hsel⟩ := hrow
    rw [decode_of_selects hr hsel] at h
    exact ⟨r, hr, hsel, Except.ok.inj h⟩
  · rw [decode_of_no_row (by simpa using hrow)] at h
    cases h

end Sys2Proof

namespace Sys2Proof.Machine

/-- The OP values that R65 (a) and (b) leave out are those of R63. -/
theorem not_mem_assignedOps_iff {o : BitVec 8} :
    o ∉ assignedOps ↔ o = 0x00#8 ∨ 0x06#8 ≤ o ∧ o ≤ 0x0F#8 ∨ 0x15#8 ≤ o := by
  simp only [assignedOps, List.mem_cons, List.not_mem_nil, or_false]
  bv_omega

/-- R65 (a) to (d) name the words that no row selects. -/
theorem no_row_iff_illegalWord {w : Word32} : (∀ r ∈ opcodeMap, r.selects w = false) ↔ illegalWord w := by
  have hrows : (∀ r ∈ opcodeMap, r.selects w = false) ↔ ¬∃ r ∈ opcodeMap, r.selects w = true := by simp
  have hops := not_mem_assignedOps_iff (o := opOf w)
  rw [hrows, exists_selects_iff, illegalWord]
  tauto

theorem runCommand_of_decode {w : Word32} {i : Instr} (h : decode w = .ok i) (s : State) :
    runCommand w s = exec i s := by
  rw [runCommand, h]

theorem runCommand_of_no_row {w : Word32} (h : ∀ r ∈ opcodeMap, r.selects w = false) (s : State) :
    Reports s .illegalCommand (runCommand w s) := by
  rw [runCommand, decode_of_no_row h]
  exact execIllegal_eq s

end Sys2Proof.Machine

/-! SUPPORT. The assembler (R67): the word of an accepted line, and what it rejects. -/

namespace Sys2Proof
open Laws.EncodedFields

theorem commandWord_toNat (o : BitVec 8) (n : Word16) :
    (commandWord o n).toNat = (o ++ 0x00#8).toNat <<< 16 ||| n.toNat := BitVec.toNat_append ..

/-- A command word is match | n (R67). -/
theorem commandWord_ofNat (o : BitVec 8) {n : Nat} (hn : n ≤ 65535) :
    commandWord o (BitVec.ofNat 16 n) = commandWord o 0x0000#16 ||| BitVec.ofNat 32 n := by
  apply BitVec.eq_of_toNat_eq
  simp [commandWord_toNat, Nat.mod_eq_of_lt (show n < 65536 by omega), Nat.mod_eq_of_lt (show n < 4294967296 by omega)]

theorem assemble_of_wf {l : AsmLine} (h : l.wf = true) : assemble l = some (encode l.toInstr) := if_pos h

theorem assemble_eq_none_iff {l : AsmLine} : assemble l = none ↔ ¬l.wf = true := by
  simp [assemble]

theorem wf_operand_iff {m : Mnemonic} {n : Nat} :
    AsmLine.wf ⟨m, some n⟩ = true ↔ m.takesArg = true ∧ n ≤ 65535 := by
  simp [AsmLine.wf]

theorem wf_no_operand_iff {m : Mnemonic} : AsmLine.wf ⟨m, none⟩ = true ↔ m.takesArg = false := by
  simp [AsmLine.wf]

theorem arg_toInstr {m : Mnemonic} (n : Nat) (hm : m.takesArg = true) :
    arg (AsmLine.toInstr ⟨m, some n⟩) = BitVec.ofNat 16 n := by
  cases m with
  | rbinit | rbget | rbpeek | firinit => rfl
  | rblen | rbpush | wclr | wload | firsize | filter => cases hm

/-- An accepted operand n stands below the OP of its command: match | n (R67). -/
theorem assemble_operand {m : Mnemonic} {n : Nat} (o : BitVec 8) (hm : m.takesArg = true)
    (ho : op (AsmLine.toInstr ⟨m, some n⟩) = o) (hn : n ≤ 65535) :
    assemble ⟨m, some n⟩ = some (commandWord o 0x0000#16 ||| BitVec.ofNat 32 n) := by
  rw [assemble_of_wf (wf_operand_iff.2 ⟨hm, hn⟩), encode_eq_commandWord, arg_toInstr n hm, commandWord_ofNat _ hn, ho]

end Sys2Proof

/-! The settled statements about command words, the decoder and the assembler. -/

namespace Sys2Proof.Machine
open Laws.EncodedFields

/-- Settles O1: the row of a command selects the command's encoding, whose ARG is the command's own. -/
theorem decodeEncodeRoundTrip : Obligations.DecodeEncodeRoundTrip := by
  intro i
  obtain ⟨r, hr, hbuild⟩ := exists_row i
  have hi : r.build (argOf (encode i)) = i := by rw [argOf_encode, hbuild]
  have hsel : r.selects (encode i) = true := (selects_iff_encode hr).2 (congrArg encode hi)
  rw [decode_of_selects hr hsel, hi]

/-- Settles O2: the row that decodes a word selects only encodings of its command. -/
theorem encodeOfDecodedWord : Obligations.EncodeOfDecodedWord := by
  intro w i h
  obtain ⟨r, hr, hsel, rfl⟩ := exists_row_of_decode h
  exact (selects_iff_encode hr).1 hsel

/-- Settles O3: the rows differ in OP, which every mask covers. -/
theorem rowSelectsTheCommand : Obligations.RowSelectsTheCommand := by
  refine ⟨?_, fun r hr w s hsel => runCommand_of_decode (decode_of_selects hr hsel) s,
    fun w s h => runCommand_of_no_row h s⟩
  have hops : opcodeMap.Pairwise fun r r' => opOf r.pattern ≠ opOf r'.pattern :=
    List.pairwise_map.1 (opcodeMap_ops ▸ assignedOps_nodup)
  refine hops.imp_of_mem fun hr hr' hne w hsel => hne ?_
  rw [selects_unique hr hr' hsel.1 hsel.2]

/-- Settles O4: the clauses of R65 are the negation of "some row selects the word", said of the fields. -/
theorem illegalWordsSetCodeNine : Obligations.IllegalWordsSetCodeNine :=
  ⟨fun _ => no_row_iff_illegalWord, fun _ s h => runCommand_of_no_row (no_row_iff_illegalWord.2 h) s, rfl⟩

/-- Settles O6: an accepted line's word is its OP with the operand below it. -/
theorem assemblerWordsAndRejections : Obligations.AssemblerWordsAndRejections := by
  refine ⟨fun n hn => ⟨assemble_operand 0x01#8 rfl rfl hn, assemble_operand 0x03#8 rfl rfl hn,
    assemble_operand 0x05#8 rfl rfl hn, assemble_operand 0x12#8 rfl rfl hn⟩, rfl, rfl, rfl, rfl, rfl, rfl, ?_, ?_, ?_⟩
  · exact fun m n hn => assemble_eq_none_iff.2 fun h => Nat.not_le.2 hn (wf_operand_iff.1 h).2
  · exact fun m n hm => assemble_eq_none_iff.2 fun h => Bool.eq_false_iff.1 hm (wf_operand_iff.1 h).1
  · exact fun m hm => assemble_eq_none_iff.2 fun h => Bool.eq_false_iff.1 (wf_no_operand_iff.1 h) hm

/-- Settles O5: the lines and words of R69 are evaluated; RBINIT #0 is the legal word whose capacity check fails. -/
theorem workedEncodings : Obligations.WorkedEncodings := by
  have hzero : decode 0x01000000#32 = .ok (.rbinit 0#16) := by decide
  have hexec (s : State) : Reports s .invalidCapacity (runCommand 0x01000000#32 s) := by
    rw [runCommand_of_decode hzero]
    exact exec_of_firstError rfl (by simp [argumentErrors, firstError])
  exact ⟨by decide, by decide, by decide, hzero, hexec, by decide⟩

end Sys2Proof.Machine

/-! SUPPORT. What the word of a command runs (R62 to R65), said of the word's fields for any command. -/

namespace Sys2Proof.Machine
open Laws.EncodedFields

theorem op_mem_assignedOps (i : Instr) : op i ∈ assignedOps := by
  cases i <;> simp [op, assignedOps]

/-- The commands whose ARG must be 0 have no operand of their own (R62). -/
theorem arg_eq_zero {i : Instr} (hi : op i ∈ noArgOps) : arg i = 0x0000#16 := by
  cases i with
  | rbinit | rbget | rbpeek | firinit => simp [op, noArgOps] at hi
  | rblen | rbpush | wclr | wload | firsize | filter => rfl

theorem encode_eq_iff {i : Instr} {w : Word32} :
    encode i = w ↔ opOf w = op i ∧ rsvdOf w = 0x00#8 ∧ argOf w = arg i := by
  rw [encode_eq_commandWord, commandWord_eq_iff]

theorem runCommand_encode (i : Instr) (s : State) : runCommand (encode i) s = exec i s :=
  runCommand_of_decode (decodeEncodeRoundTrip i) s

theorem runCommand_of_illegalWord {w : Word32} (h : illegalWord w) (s : State) :
    Reports s .illegalCommand (runCommand w s) := runCommand_of_no_row (no_row_iff_illegalWord.2 h) s

/-- A word with the OP and ARG of a command runs it if RSVD is 0, and is illegal otherwise (R64, R65 (c)). -/
theorem runCommand_of_op_arg {w : Word32} {i : Instr} (hop : opOf w = op i) (harg : argOf w = arg i) (s : State) :
    (rsvdOf w = 0x00#8 → runCommand w s = exec i s) ∧
    (rsvdOf w ≠ 0x00#8 → Reports s .illegalCommand (runCommand w s)) := by
  refine ⟨fun hr => ?_, fun hr => runCommand_of_illegalWord ?_ s⟩
  · rw [← encode_eq_iff.2 ⟨hop, hr, harg⟩, runCommand_encode]
  · exact .inr (.inr (.inl ⟨hop ▸ op_mem_assignedOps i, hr⟩))

/-- A command without an operand has one word; every other word with its OP is illegal (R65 (c), (d)). -/
theorem runCommand_of_ne_encode {w : Word32} {i : Instr} (hi : op i ∈ noArgOps) (hop : opOf w = op i)
    (hne : w ≠ encode i) (s : State) : Reports s .illegalCommand (runCommand w s) := by
  by_cases harg : argOf w = arg i
  · exact (runCommand_of_op_arg hop harg s).2 fun hr => hne (encode_eq_iff.2 ⟨hop, hr, harg⟩).symm
  · rw [arg_eq_zero hi] at harg
    exact runCommand_of_illegalWord (.inr (.inr (.inr ⟨hop ▸ hi, harg⟩))) s

/-- A command that R133 or R134 stops with a code reports it. -/
theorem reports_of_expectedCode {i : Instr} {s : State} {c : Code} (hc : expectedCode i s = c) (hne : c ≠ .ok) :
    Reports s c (exec i s) := by
  subst hc
  exact exec_of_expectedCode hne

/-- RBINIT's first check (R82). -/
theorem State.reports_rbinit_zero (s : State) : Reports s .invalidCapacity (exec (.rbinit 0#16) s) :=
  reports_of_expectedCode (by simp [expectedCode, admission, argumentErrors, firstError]) (by decide)

/-- RBINIT's second check (R82); a capacity above N_MAX is not 0. -/
theorem State.reports_rbinit_tooLarge (s : State) {n : Word16} (h : s.cfg.nMax < n) :
    Reports s .capacityTooLarge (exec (.rbinit n) s) := by
  have hpos : n ≠ 0#16 := by bv_omega
  exact reports_of_expectedCode (by simp [expectedCode, admission, argumentErrors, firstError, hpos, h]) (by decide)

/-- RBPEEK's check (R90). -/
theorem State.reports_rbpeek_outOfRange (s : State) {p : Word16} (hm : s.mode ≠ .unconfigured) (h : s.cap ≤ p) :
    Reports s .indexOutOfRange (exec (.rbpeek p) s) := by
  have ha : admission (.rbpeek p) s.mode = none := by
    cases hmode : s.mode with
    | unconfigured => exact absurd hmode hm
    | ring | fir => rfl
  exact reports_of_expectedCode (by simp [expectedCode, ha, argumentErrors, firstError, h]) (by decide)

end Sys2Proof.Machine

/-! SUPPORT. The logical index (R25, R80) and the push of RBPUSH and FILTER (R88, R110). -/

namespace Sys2Proof.Machine

/-- TAIL of a new object of n slots, as a number (R82, R106). -/
theorem toNat_sub_one {n : Word16} (h : n ≠ 0#16) : (n - 1#16).toNat = n.toNat - 1 := by bv_omega

namespace State

section
variable (s : State)

/-- A logical index counts mod CAP (R80). -/
theorem phys_mod (i : Nat) : s.phys (i % s.cap.toNat) = s.phys i := Nat.add_mod_mod ..

/-- Different logical indices are different slots (R80). -/
theorem phys_inj {i j : Nat} (hi : i < s.cap.toNat) (hj : j < s.cap.toNat) : s.phys i = s.phys j ↔ i = j :=
  ⟨fun h => Nat.ModEq.eq_of_lt_of_lt (Nat.ModEq.add_left_cancel' _ h) hi hj, fun h => h ▸ rfl⟩

/-- The newest element, at logical index CAP-1, is in the slot at TAIL (R24, R25). -/
theorem phys_last (h : s.tail.toNat < s.cap.toNat) : s.phys (s.cap.toNat - 1) = s.tail.toNat := by
  rw [phys, show s.tail.toNat + 1 + (s.cap.toNat - 1) = s.tail.toNat + s.cap.toNat by omega, Nat.add_mod_right,
    Nat.mod_eq_of_lt h]

/-- TAIL after the push is the slot pushed into. -/
theorem pushed_tail_toNat (h : s.phys 0 < s.cap.toNat) : s.pushed.tail.toNat = s.phys 0 := by
  have := s.cap.isLt
  exact Nat.mod_eq_of_lt (by omega)

/-- The push renumbers the slots by one: what was at logical index i+1 is at i (R89 (b)). -/
theorem pushed_phys (h : s.phys 0 < s.cap.toNat) (i : Nat) : s.pushed.phys i = s.phys (i + 1) := by
  have htail : s.pushed.tail.toNat = (s.tail.toNat + 1) % s.cap.toNat := s.pushed_tail_toNat h
  calc s.pushed.phys i
      = ((s.tail.toNat + 1) % s.cap.toNat + (1 + i)) % s.cap.toNat := by rw [← htail, ← Nat.add_assoc]; rfl
    _ = s.phys (i + 1) := by rw [Nat.mod_add_mod, Nat.add_comm 1 i]; rfl

theorem logical_length : s.logical.length = s.cap.toNat := by simp [logical]

end

section
variable {s : State} (h : s.Inv)
include h

/-- The push writes its slot alone (R88). -/
theorem Inv.read_pushed (p : Nat) : s.pushed.stor.read p = if p = s.phys 0 then s.din else s.stor.read p :=
  Elems.read_write h.storWf _ _ _

theorem Inv.tail_lt (hm : s.mode ≠ .unconfigured) : s.tail.toNat < s.cap.toNat := BitVec.lt_def.1 (h.tailLt hm)

/-- A core that holds an object is not in reset (R151). -/
theorem Inv.rst_low (hm : s.mode ≠ .unconfigured) : s.rst = false := by
  by_contra hr
  exact hm (congrArg State.mode (h.inReset (by simpa using hr)))

/-- A push takes the oldest element out in front and puts DIN in behind (R89 (a), (b)). -/
theorem Inv.logical_pushed (hm : s.mode ≠ .unconfigured) :
    s.stor.read (s.phys 0) :: s.pushed.logical = s.logical ++ [s.din] := by
  obtain ⟨hslot, -⟩ := h.phys_range hm 0
  obtain ⟨c, hcap⟩ : ∃ c, s.cap.toNat = c + 1 := Nat.exists_eq_add_one.2 (by omega)
  have hcap' : s.pushed.cap.toNat = c + 1 := hcap
  have hkept : ∀ i ∈ List.range c, s.pushed.stor.read (s.pushed.phys i) = s.stor.read (s.phys (i + 1)) := fun i hi => by
    have hi := List.mem_range.1 hi
    have hne : s.phys (i + 1) ≠ s.phys 0 := fun he => by
      simpa using (s.phys_inj (by omega) (by omega)).1 he
    rw [h.read_pushed, s.pushed_phys hslot, if_neg hne]
  have hnew : s.pushed.stor.read (s.pushed.phys c) = s.din := by
    rw [h.read_pushed, s.pushed_phys hslot, ← hcap, ← s.phys_mod s.cap.toNat, Nat.mod_self, if_pos rfl]
  calc s.stor.read (s.phys 0) :: s.pushed.logical
      = s.stor.read (s.phys 0) :: ((List.range c).map (fun i => s.stor.read (s.phys (i + 1))) ++ [s.din]) := by
        rw [logical, hcap', List.range_succ, List.map_append, List.map_congr_left hkept, List.map_singleton, hnew]
    _ = s.logical ++ [s.din] := by
        rw [logical, hcap, List.range_succ_eq_map, List.map_cons, List.map_map]
        rfl

/-- RBGET of an object answers for every index (R86). -/
theorem Inv.exec_rbget (hm : s.mode ≠ .unconfigured) (i : Word16) :
    exec (.rbget i) s = .next { s with dout := s.stor.read (s.phys i.toNat), code := .ok } :=
  exec_of_completes (.rbget hm (h.phys_range hm _))

/-- RBPEEK of an object answers for every slot it has (R90). -/
theorem Inv.exec_rbpeek (hm : s.mode ≠ .unconfigured) {p : Word16} (hp : p < s.cap) :
    exec (.rbpeek p) s = .next { s with dout := s.stor.read p.toNat, code := .ok } :=
  have hlt := BitVec.lt_def.1 hp
  exec_of_completes (.rbpeek hm ⟨hlt, hlt.trans_le (h.cap_range hm).2⟩)

/-- RBPUSH of a ring buffer: it answers the oldest element, and shifts the logical contents by one (R88, R89). -/
theorem Inv.exec_rbpush (hm : s.mode = .ring) :
    ∃ t, exec .rbpush s = .next t ∧ t.Inv ∧ t = { s.pushed with dout := s.stor.read (s.phys 0), code := .ok } ∧
      t.tail.toNat = (s.tail.toNat + 1) % s.cap.toNat ∧ t.dout :: t.logical = s.logical ++ [s.din] := by
  have hobj : s.mode ≠ .unconfigured := by simp [hm]
  have hslot := h.phys_range hobj 0
  have hc := Completes.rbpush hm hslot
  exact ⟨_, exec_of_completes hc, hc.inv h (h.rst_low hobj), rfl, s.pushed_tail_toNat hslot.1, h.logical_pushed hobj⟩

end

/-- The state after a successful RBINIT (R82). -/
def ringBuilt (s : State) (n : Word16) : State :=
  { s with mode := .ring, cap := n, tail := n - 1#16, stor := s.stor.fill n.toNat s.din, code := .ok }

section
variable {s : State} {n : Word16} (hpos : n ≠ 0#16)
include hpos

theorem exec_rbinit (hle : n ≤ s.cfg.nMax) : exec (.rbinit n) s = .next (s.ringBuilt n) :=
  exec_of_completes (.rbinit hpos hle)

theorem ringBuilt_phys_lt (i : Nat) : (s.ringBuilt n).phys i < n.toNat :=
  phys_lt (s := s.ringBuilt n) (show 0 < n.toNat by bv_omega) i

/-- Every logical index of a new ring buffer holds DIN (R83). -/
theorem read_ringBuilt_phys (i : Nat) : (s.ringBuilt n).stor.read ((s.ringBuilt n).phys i) = s.din :=
  (Elems.read_fill _ _ _ _).trans (if_pos (ringBuilt_phys_lt hpos i))

/-- The oldest element of a new ring buffer is in slot 0 (R83). -/
theorem ringBuilt_phys_zero : (s.ringBuilt n).phys 0 = 0 := by
  have htail : (n - 1#16).toNat + 1 = n.toNat := by bv_omega
  have hmod : (s.ringBuilt n).phys 0 = ((n - 1#16).toNat + 1) % n.toNat := rfl
  rw [hmod, htail, Nat.mod_self]

/-- The slots of a new ring buffer are in range (R51). -/
theorem ringBuilt_phys_range (hle : n ≤ s.cfg.nMax) (i : Nat) :
    (s.ringBuilt n).phys i < (s.ringBuilt n).cap.toNat ∧ (s.ringBuilt n).phys i < (s.ringBuilt n).nMax :=
  have hlt := ringBuilt_phys_lt (s := s) hpos i
  ⟨hlt, hlt.trans_le (BitVec.le_def.1 hle)⟩

end

end State

end Sys2Proof.Machine

/-! SUPPORT. The commands that leave the object alone (R87, R93), and runs of commands. -/

namespace Sys2Proof.Machine

/-- Two states that hold the same object, in the same configuration: what RBGET and RBPEEK read. -/
structure SameObject (s t : State) : Prop where
  mode : s.mode = t.mode
  cap : s.cap = t.cap
  tail : s.tail = t.tail
  stor : s.stor = t.stor
  cfg : s.cfg = t.cfg

theorem SameObject.trans {s t u : State} (h : SameObject s t) (h' : SameObject t u) : SameObject s u :=
  ⟨h.mode.trans h'.mode, h.cap.trans h'.cap, h.tail.trans h'.tail, h.stor.trans h'.stor, h.cfg.trans h'.cfg⟩

/-- A command other than RBPUSH, FILTER, RBINIT and FIRINIT keeps the object (R87). -/
theorem sameObject_of_exec {i : Instr} {s t : State} (hi : changesObject i = false) (h : exec i s = .next t) :
    SameObject s t := by
  obtain hc | ⟨-, rfl⟩ := exec_next_cases h
  · cases hc with
    | rblen | rbget | rbpeek | wclr | wload | firsize => exact ⟨rfl, rfl, rfl, rfl, rfl⟩
    | rbinit | rbpush | firinit | filter => cases hi
  · exact ⟨rfl, rfl, rfl, rfl, rfl⟩

theorem issue_cons {i : Instr} {rest : List Instr} {s u : State} :
    issue (i :: rest) s = some u ↔ ∃ t, exec i s = .next t ∧ issue rest t = some u := by
  rw [issue]
  cases exec i s <;> simp

/-- So does any run of such commands. -/
theorem sameObject_of_issue {l : List Instr} {s u : State} (hl : (l.all fun j => !changesObject j) = true)
    (h : issue l s = some u) : SameObject s u := by
  induction l generalizing s with
  | nil =>
    cases h
    exact ⟨rfl, rfl, rfl, rfl, rfl⟩
  | cons i rest ih =>
    obtain ⟨hi, hrest⟩ : changesObject i = false ∧ (rest.all fun j => !changesObject j) = true := by simpa using hl
    obtain ⟨t, hexec, hissue⟩ := issue_cons.1 h
    exact (sameObject_of_exec hi hexec).trans (ih hrest hissue)

/-- RBGET reads the object alone (R86). -/
theorem SameObject.exec_rbget {s u : State} (h : SameObject s u) (hs : s.Inv) (hm : s.mode ≠ .unconfigured)
    (i : Word16) : exec (.rbget i) u = .next { u with dout := s.stor.read (s.phys i.toNat), code := .ok } := by
  have hphys : s.phys i.toNat = u.phys i.toNat := by simp only [State.phys, h.tail, h.cap]
  have hrange := hs.phys_range hm i.toNat
  rw [hphys, State.nMax, h.cap, h.cfg] at hrange
  rw [hphys, h.stor]
  exact exec_of_completes (.rbget (h.mode ▸ hm) hrange)

/-- One command of a feed, with the value in DIN, and then the others. -/
theorem feed_cons {i : Instr} {x : Word64} {xs ys : List Word64} {s t u : State}
    (hexec : exec i { s with din := x } = .next t) (hfeed : feed i xs t = some (ys, u)) :
    feed i (x :: xs) s = some (t.dout :: ys, u) := by
  simp only [feed, hexec, hfeed]

/-- The pushes one after the other (R89): each takes one element out in front, puts one in behind and moves TAIL on. -/
theorem feed_rbpush {s : State} (xs : List Word64) (h : s.Inv) (hm : s.mode = .ring) :
    ∃ ys u, feed .rbpush xs s = some (ys, u) ∧ ys.length = xs.length ∧ ys ++ u.logical = s.logical ++ xs ∧
      u.mode = .ring ∧ u.cap = s.cap ∧ u.tail.toNat = (s.tail.toNat + xs.length) % s.cap.toNat := by
  induction xs generalizing s with
  | nil =>
    have htail := Nat.mod_eq_of_lt (h.tail_lt (by simp [hm]))
    exact ⟨[], s, rfl, rfl, by simp, hm, rfl, htail.symm⟩
  | cons x xs ih =>
    have hx : ({ s with din := x } : State).Inv := h.with_registers (h.rst_low (by simp [hm])) _ _ _ _ _
    obtain ⟨t, hexec, ht, hfields, htail, hlogical⟩ := hx.exec_rbpush hm
    have hcap : t.cap = s.cap := by rw [hfields]; rfl
    have hring : t.mode = .ring := by rw [hfields]; exact hm
    obtain ⟨ys, u, hfeed, hlen, hys, hmode, hcap', htail'⟩ := ih ht hring
    refine ⟨t.dout :: ys, u, feed_cons hexec hfeed, by simp [hlen], ?_, hmode, hcap'.trans hcap, ?_⟩
    · calc t.dout :: ys ++ u.logical
          = (t.dout :: t.logical) ++ xs := by rw [List.cons_append, hys, List.cons_append]
        _ = s.logical ++ x :: xs := by rw [hlogical, List.append_assoc]; rfl
    · rw [htail', htail, hcap, Nat.mod_add_mod, List.length_cons, Nat.add_assoc, Nat.add_comm 1]

end Sys2Proof.Machine

/-! The settled statements about the ring-buffer commands. -/

namespace Sys2Proof.Machine

/-- Settles O38: the pushes in turn (`feed_rbpush`); as many values as slots fill the buffer. -/
theorem pushesAreFifo : Obligations.PushesAreFifo := by
  intro s xs h hm
  obtain ⟨ys, u, hfeed, hlen, hys, hmode, hcap, htail⟩ := feed_rbpush xs h hm
  refine ⟨ys, u, hfeed, hlen, hys, hmode, hcap, htail, fun hfull => List.append_inj hys ?_⟩
  rw [hlen, hfull, s.logical_length]

/-- Settles O27: a command that reports a code changes CODE alone, and of those that complete on an object only the
two pushes write it. -/
theorem onlyPushAndFilterMutate : Obligations.OnlyPushAndFilterMutate := by
  intro i s t h hobj hexec hrb hfir
  obtain ⟨hslot, -⟩ := h.phys_range hobj 0
  have htail := s.pushed_tail_toNat hslot
  have hpush : s.pushed.stor.read s.pushed.tail.toNat = s.din ∧
      ∀ p, p ≠ s.pushed.tail.toNat → s.pushed.stor.read p = s.stor.read p := by
    rw [htail]
    exact ⟨(h.read_pushed _).trans (if_pos rfl), fun p hp => (h.read_pushed p).trans (if_neg hp)⟩
  obtain hc | ⟨-, rfl⟩ := exec_next_cases hexec
  · cases hc with
    | rbinit => exact absurd rfl (hrb _)
    | firinit => exact absurd rfl (hfir _)
    | rblen | rbget | rbpeek | wclr | wload | firsize => exact ⟨rfl, rfl, .inl ⟨rfl, rfl⟩⟩
    | rbpush hm => exact ⟨rfl, rfl, .inr ⟨.inl ⟨rfl, hm⟩, htail, hpush⟩⟩
    | filter hm => exact ⟨rfl, rfl, .inr ⟨.inr ⟨rfl, hm⟩, htail, hpush⟩⟩
  · exact ⟨rfl, rfl, .inl ⟨rfl, rfl⟩⟩

/-- Settles O30: the checks of RBINIT in their order, and the object it builds. -/
theorem rbinitBuildsRingBuffer : Obligations.RbinitBuildsRingBuffer := by
  intro s
  refine ⟨fun w hop => runCommand_of_op_arg (i := .rbinit (argOf w)) hop rfl s, State.reports_rbinit_zero s,
    fun n _ hgt => s.reports_rbinit_tooLarge hgt, fun n hpos hle => ?_⟩
  exact ⟨_, State.exec_rbinit hpos hle, rfl, toNat_sub_one hpos, Elems.read_fill _ _ _⟩

/-- Settles O31: slot 0 of the new buffer holds its oldest element, and every slot holds the old DIN. -/
theorem rbinitThenReadBack : Obligations.RbinitThenReadBack := by
  intro s h
  refine ⟨fun n hn hle => ?_, fun n hgt => ⟨_, by decide, s.reports_rbinit_tooLarge hgt⟩,
    fun v => ⟨_, by decide, State.reports_rbinit_zero _⟩⟩
  have hpos : n ≠ 0#16 := by bv_omega
  have hrange := State.ringBuilt_phys_range (s := s) hpos hle
  refine ⟨s.ringBuilt n, State.exec_rbinit hpos hle, rfl, ?_, fun i => ?_, fun v => ?_⟩
  · exact ⟨_, exec_of_completes (.rblen (by simp [State.ringBuilt])), BitVec.toNat_setWidth_of_le (by decide)⟩
  · exact ⟨_, exec_of_completes (.rbget (by simp [State.ringBuilt]) (hrange _)), State.read_ringBuilt_phys hpos _⟩
  · have hzero : ({ s.ringBuilt n with din := v } : State).phys 0 = 0 := State.ringBuilt_phys_zero (s := s) hpos
    have hwf : (s.ringBuilt n).stor.wf s.nMax = true := Elems.wf_fill _ h.storWf (BitVec.le_def.1 hle)
    refine ⟨_, exec_of_completes (.rbpush (s := { s.ringBuilt n with din := v }) rfl (hrange 0)), ?_, ?_, ?_⟩
    · simp only [State.pushed, hzero]
    · simp only [State.pushed, hzero]
      exact (Elems.read_write hwf _ _ _).trans (if_pos rfl)
    · intro p hp
      simp only [State.pushed, hzero]
      exact (Elems.read_write hwf _ _ _).trans (if_neg hp)

/-- Settles O32: RBLEN writes CAP to DOUT, zero-extended, as FIRSIZE does. -/
theorem rblenReturnsCapacity : Obligations.RblenReturnsCapacity := by
  intro s
  have hzext : (s.cap.setWidth 64).toNat = s.cap.toNat := BitVec.toNat_setWidth_of_le (by decide)
  obtain ⟨-, -, -, hreg, -⟩ := registerMapReads s
  refine ⟨runCommand_encode .rblen s, fun w hop hne => runCommand_of_ne_encode (i := .rblen) (by decide) hop hne s,
    fun hm => exec_of_admission (by rw [hm]; rfl),
    fun hm => ⟨_, exec_of_completes (.rblen hm), rfl, hzext, hzext.trans hreg.symm⟩, fun hm => ?_⟩
  rw [exec_of_completes (.rblen (by simp [hm])), exec_of_completes (.firsize hm)]

/-- Settles O33: the slot of a logical index is in range (R51). -/
theorem rbgetReadsLogicalIndex : Obligations.RbgetReadsLogicalIndex :=
  fun s h =>
    ⟨fun w hop => runCommand_of_op_arg (i := .rbget (argOf w)) hop rfl s,
      fun hm _ => exec_of_admission (by rw [hm]; rfl), fun hm i => h.exec_rbget hm i⟩

/-- Settles O34: a logical index counts mod CAP, and CAP-1 slots past the oldest element is TAIL. -/
theorem rbgetWrapsAndEndsAtTail : Obligations.RbgetWrapsAndEndsAtTail := by
  intro s h hm
  refine ⟨fun i => ?_, ?_⟩
  · rw [h.exec_rbget hm, h.exec_rbget hm, BitVec.toNat_umod, s.phys_mod]
  · have hcap : s.cap ≠ 0#16 := fun hc => hm (h.unconfiguredIff.2 hc)
    rw [h.exec_rbget hm, toNat_sub_one hcap, s.phys_last (h.tail_lt hm)]

/-- Settles O35: RBGET and the commands in between keep the object that the second RBGET reads. -/
theorem rbgetRepeatsItsValue : Obligations.RbgetRepeatsItsValue := by
  intro s t u i between h hm hget hbetween hissue
  have hsame : SameObject s u := (sameObject_of_exec rfl hget).trans (sameObject_of_issue hbetween hissue)
  cases (h.exec_rbget hm i).symm.trans hget
  exact ⟨rfl, _, hsame.exec_rbget h hm i, rfl, rfl⟩

/-- Settles O36: the slot of the oldest element is read, then written, and becomes the tail. -/
theorem rbpushEvictsTheOldest : Obligations.RbpushEvictsTheOldest := by
  intro s h
  refine ⟨runCommand_encode .rbpush s, fun w hop hne => runCommand_of_ne_encode (i := .rbpush) (by decide) hop hne s,
    fun hm => exec_of_admission (by rw [hm]; rfl), fun hm => exec_of_admission (by rw [hm]; rfl), fun hm => ?_⟩
  obtain ⟨t, hexec, -, rfl, htail, -⟩ := h.exec_rbpush hm
  exact ⟨_, hexec, rfl, htail, rfl, h.read_pushed⟩

/-- Settles O37: the push and RBGET #0 read the same slot, phys(0). -/
theorem pushShiftsTheLogicalContents : Obligations.PushShiftsTheLogicalContents := by
  intro s h hm
  obtain ⟨t, hexec, -, rfl, -, hlogical⟩ := h.exec_rbpush hm
  exact ⟨_, hexec, hlogical, _, h.exec_rbget (by simp [hm]) 0#16, rfl⟩

/-- Settles O39: RBPEEK's one argument check is p < CAP. -/
theorem rbpeekReadsPhysicalIndex : Obligations.RbpeekReadsPhysicalIndex :=
  fun s h =>
    ⟨fun w hop => runCommand_of_op_arg (i := .rbpeek (argOf w)) hop rfl s,
      fun hm _ => exec_of_admission (by rw [hm]; rfl), fun hm _ hge => s.reports_rbpeek_outOfRange hm hge,
      fun hm _ hp => h.exec_rbpeek hm hp⟩

/-- Settles O40: phys(i) is a slot of the object, and 16 bits hold it. -/
theorem peekAtPhysEqualsGet : Obligations.PeekAtPhysEqualsGet := by
  intro s i h hm
  obtain ⟨hslot, -⟩ := h.phys_range hm i.toNat
  have htoNat : (BitVec.ofNat 16 (s.phys i.toNat)).toNat = s.phys i.toNat :=
    Nat.mod_eq_of_lt (hslot.trans s.cap.isLt)
  refine ⟨_, h.exec_rbget hm i, ?_⟩
  rw [h.exec_rbpeek hm (BitVec.lt_def.2 (htoNat.symm ▸ hslot)), htoNat]

end Sys2Proof.Machine

/-! SUPPORT. The staging and the construction of a filter (R102 to R107): the states WLOAD and FIRINIT leave. -/

namespace Sys2Proof.Machine

namespace State

/-- WLOAD's check (R104). -/
theorem reports_wload_full (s : State) (h : s.wcount = s.cfg.nMax) : Reports s .stagingFull (exec .wload s) :=
  reports_of_expectedCode (by simp [expectedCode, admission, argumentErrors, firstError, h]) (by decide)

/-- FIRINIT's first check (R106). -/
theorem reports_firinit_zero (s : State) : Reports s .invalidSize (exec (.firinit 0#16) s) :=
  reports_of_expectedCode (by simp [expectedCode, admission, argumentErrors, firstError]) (by decide)

/-- FIRINIT's second check (R106); a size above N_MAX is not 0. -/
theorem reports_firinit_tooLarge (s : State) {n : Word16} (h : s.cfg.nMax < n) :
    Reports s .capacityTooLarge (exec (.firinit n) s) := by
  have hpos : n ≠ 0#16 := by bv_omega
  exact reports_of_expectedCode (by simp [expectedCode, admission, argumentErrors, firstError, hpos, h]) (by decide)

/-- FIRINIT's third check (R106). -/
theorem reports_firinit_mismatch (s : State) {n : Word16} (hpos : n ≠ 0#16) (hle : n ≤ s.cfg.nMax)
    (hw : s.wcount ≠ n) : Reports s .weightLengthMismatch (exec (.firinit n) s) := by
  have hlt : ¬s.cfg.nMax < n := BitVec.not_lt.2 hle
  exact reports_of_expectedCode (by simp [expectedCode, admission, argumentErrors, firstError, hpos, hlt, hw])
    (by decide)

/-- The state after a WLOAD that finds room (R104). -/
def loaded (s : State) : State :=
  { s with wstage := s.wstage.write s.wcount.toNat s.din, wcount := s.wcount + 1#16, code := .ok }

theorem exec_wload {s : State} (h : s.wcount.toNat < s.nMax) : exec .wload s = .next s.loaded :=
  exec_of_completes (.wload h)

theorem loaded_wcount_toNat {s : State} (h : s.wcount.toNat < s.nMax) :
    s.loaded.wcount.toNat = s.wcount.toNat + 1 := by
  unfold nMax at h
  unfold loaded
  bv_omega

theorem read_loaded {s : State} (h : s.wstage.wf s.nMax = true) (p : Nat) :
    s.loaded.wstage.read p = if p = s.wcount.toNat then s.din else s.wstage.read p :=
  Elems.read_write h _ _ _

/-- The state after a successful FIRINIT (R106). -/
def filterBuilt (s : State) (n : Word16) : State :=
  { s with
    mode := .fir, cap := n, tail := n - 1#16, stor := s.stor.fill n.toNat 0#64,
    wts := s.wts.copyFrom s.wstage n.toNat, code := .ok }

theorem exec_firinit {s : State} {n : Word16} (hpos : n ≠ 0#16) (hle : n ≤ s.cfg.nMax) (hw : s.wcount = n) :
    exec (.firinit n) s = .next (s.filterBuilt n) :=
  exec_of_completes (.firinit hpos hle hw)

/-- A FIRINIT that completes OK passed its three checks (R106). -/
theorem eq_filterBuilt_of_exec {s t : State} {n : Word16} (h : exec (.firinit n) s = .next t) (hok : t.code = .ok) :
    n ≠ 0#16 ∧ n ≤ s.cfg.nMax ∧ s.wcount = n ∧ t = s.filterBuilt n := by
  obtain hc | ⟨hne, rfl⟩ := exec_next_cases h
  · cases hc with
    | firinit hpos hle hw => exact ⟨hpos, hle, hw, rfl⟩
  · exact absurd hok hne

/-- The weights of a new filter are the staged ones (R106). -/
theorem filterBuilt_weights (s : State) (n : Word16) :
    (s.filterBuilt n).weights = (List.range n.toNat).map s.wstage.read :=
  List.map_congr_left fun p hp => (Elems.read_copyFrom _ _ _ p).trans (if_pos (List.mem_range.1 hp))

/-- The delay line of a new filter is +0.0 at every logical index (R106, R107). -/
theorem filterBuilt_logical (s : State) {n : Word16} (hpos : n ≠ 0#16) :
    (s.filterBuilt n).logical = List.replicate n.toNat 0x0000000000000000#64 := by
  have hslot (i : Nat) : (s.filterBuilt n).phys i < n.toNat :=
    phys_lt (s := s.filterBuilt n) (show 0 < n.toNat by bv_omega) i
  refine List.eq_replicate_iff.2 ⟨logical_length _, fun v hv => ?_⟩
  obtain ⟨i, -, rfl⟩ := List.mem_map.1 hv
  exact (Elems.read_fill _ _ _ _).trans (if_pos (hslot i))

end State

/-- WLOADs one after the other append their values to the staged ones (R104, R105). -/
theorem feed_wload {s : State} (ws : List Word64) (hwf : s.wstage.wf s.nMax = true)
    (hroom : s.wcount.toNat + ws.length ≤ s.nMax) (hok : s.code = .ok) :
    ∃ ys u, feed .wload ws s = some (ys, u) ∧ u.code = .ok ∧ u.wcount.toNat = s.wcount.toNat + ws.length ∧
      (∀ p, p < s.wcount.toNat → u.wstage.read p = s.wstage.read p) ∧
      ∀ j (h : j < ws.length), u.wstage.read (s.wcount.toNat + j) = ws[j] := by
  induction ws generalizing s with
  | nil => exact ⟨[], s, rfl, hok, rfl, fun _ _ => rfl, fun j h => absurd h (Nat.not_lt_zero j)⟩
  | cons x xs ih =>
    rw [List.length_cons] at hroom
    have hlt : s.wcount.toNat < s.nMax := by omega
    let t := ({ s with din := x } : State).loaded
    have hexec : exec .wload { s with din := x } = .next t := State.exec_wload hlt
    have hcount : t.wcount.toNat = s.wcount.toNat + 1 := State.loaded_wcount_toNat (s := { s with din := x }) hlt
    have hread (p : Nat) : t.wstage.read p = if p = s.wcount.toNat then x else s.wstage.read p :=
      State.read_loaded (s := { s with din := x }) hwf p
    have hroom' : t.wcount.toNat + xs.length ≤ t.nMax := by
      rw [hcount]
      exact (by omega : s.wcount.toNat + 1 + xs.length ≤ s.nMax)
    obtain ⟨ys, u, hfeed, hcode, hlen, hkept, hnew⟩ := ih (Elems.wf_write x hwf hlt) hroom' rfl
    rw [hcount] at hlen hkept hnew
    refine ⟨_, u, feed_cons hexec hfeed, hcode, by rw [hlen, List.length_cons]; omega, fun p hp => ?_,
      fun j hj => ?_⟩
    · rw [hkept p (by omega), hread, if_neg (by omega)]
    · cases j with
      | zero => rw [Nat.add_zero, hkept _ (by omega), hread, if_pos rfl, List.getElem_cons_zero]
      | succ j => rw [Nat.add_succ, ← Nat.succ_add, hnew j (by simpa using hj), List.getElem_cons_succ]

end Sys2Proof.Machine

/-! The settled statements about the staging and the construction of a filter. -/

namespace Sys2Proof.Machine

/-- Settles O41: WCLR has no check, and one word. -/
theorem wclrEmptiesTheStaging : Obligations.WclrEmptiesTheStaging :=
  fun s => ⟨runCommand_encode .wclr s, fun _ hop hne => runCommand_of_ne_encode (i := .wclr) (by decide) hop hne s,
    exec_of_completes .wclr⟩

/-- Settles O42: WLOAD's one check is WCOUNT = N_MAX. -/
theorem wloadAppendsAWeight : Obligations.WloadAppendsAWeight := by
  intro s h
  refine ⟨runCommand_encode .wload s, fun w hop hne => runCommand_of_ne_encode (i := .wload) (by decide) hop hne s,
    s.reports_wload_full, fun hne => ?_⟩
  have hlt := h.wcount_lt hne
  exact ⟨_, State.exec_wload hlt, rfl, State.loaded_wcount_toNat hlt, State.read_loaded h.wstageWf⟩

/-- Settles O43: after WCLR the WLOADs append to an empty staging (`feed_wload`). -/
theorem loadsStageTheVector : Obligations.LoadsStageTheVector := by
  intro s ws h hlen
  let c : State := { s with wcount := 0#16, code := .ok }
  obtain ⟨ys, u, hfeed, hcode, hcount, -, hread⟩ :=
    feed_wload (s := c) ws h.wstageWf (by simpa [c, State.nMax] using hlen) rfl
  have hzero : c.wcount.toNat = 0 := rfl
  simp only [hzero, Nat.zero_add] at hcount hread
  exact ⟨c, ys, u, exec_of_completes .wclr, hfeed, hcode, hcount, hread⟩

/-- Settles O44: the checks of FIRINIT in their order, and the filter it builds. -/
theorem firinitBuildsFilter : Obligations.FirinitBuildsFilter := by
  intro s
  refine ⟨fun w hop => runCommand_of_op_arg (i := .firinit (argOf w)) hop rfl s, s.reports_firinit_zero,
    fun n _ hgt => s.reports_firinit_tooLarge hgt, fun n hpos hle hw => s.reports_firinit_mismatch hpos hle hw,
    fun n hpos hle hw => ?_⟩
  exact ⟨_, State.exec_firinit hpos hle hw, rfl, toNat_sub_one hpos, Elems.read_fill _ _ _,
    Elems.read_copyFrom _ _ _⟩

/-- Settles O45: a command that reports a code changes CODE alone, `Completes` shows that only WCLR and WLOAD write the
staging, and FIRINIT leaves N_MAX and the staging as its checks found them. -/
theorem stagingSurvives : Obligations.StagingSurvives := by
  refine ⟨fun i s t hwclr hwload hexec => ?_, fun n s t hexec hok => ?_⟩
  · obtain hc | ⟨-, rfl⟩ := exec_next_cases hexec
    · cases hc with
      | wclr => exact absurd rfl hwclr
      | wload => exact absurd rfl hwload
      | rbinit | rblen | rbget | rbpush | rbpeek | firinit | firsize | filter => exact ⟨rfl, rfl⟩
    · exact ⟨rfl, rfl⟩
  · obtain ⟨hpos, hle, rfl, rfl⟩ := State.eq_filterBuilt_of_exec hexec hok
    refine ⟨_, State.exec_firinit hpos hle rfl, rfl, rfl, rfl, ?_, State.filterBuilt_logical _ hpos⟩
    rw [State.filterBuilt_weights, State.filterBuilt_weights]
    rfl

/-- Settles O46: the size is checked against N_MAX before WCOUNT. -/
theorem firinitRejectsMismatch : Obligations.FirinitRejectsMismatch := by
  intro s _
  refine ⟨fun hw hle => s.reports_firinit_mismatch (by decide) hle (by rw [hw]; decide),
    fun _ hlt => s.reports_firinit_tooLarge hlt, s.reports_firinit_zero, fun n t hexec hok => ?_, rfl⟩
  obtain ⟨hpos, -, -, rfl⟩ := State.eq_filterBuilt_of_exec hexec hok
  exact State.filterBuilt_logical s hpos

/-- Settles O47: FIRSIZE writes CAP to DOUT, zero-extended, as RBLEN does. -/
theorem firsizeReturnsSize : Obligations.FirsizeReturnsSize := by
  intro s
  have hzext : (s.cap.setWidth 64).toNat = s.cap.toNat := BitVec.toNat_setWidth_of_le (by decide)
  refine ⟨runCommand_encode .firsize s,
    fun w hop hne => runCommand_of_ne_encode (i := .firsize) (by decide) hop hne s,
    fun hm => exec_of_admission (by rw [hm]; rfl), fun hm => exec_of_admission (by rw [hm]; rfl), fun hm => ?_⟩
  exact ⟨_, exec_of_completes (.firsize hm), rfl, hzext, hzext.trans (by simp [State.weights]),
    exec_of_completes (.rblen (by simp [hm]))⟩

end Sys2Proof.Machine

/-! SUPPORT. FILTER (R110): the dot product it computes, and any number of them against the source's filter. -/

namespace Sys2Proof.Machine

theorem State.weights_length (s : State) : s.weights.length = s.cap.toNat := by simp [State.weights]

/-- The sum of R110 over the taps of a state is the dot product of its weights with its delay line. -/
theorem State.dot_weights_logical (s : State) :
    dot s.weights s.logical = (List.range s.cap.toNat).foldl
      (fun acc i => fadd64 acc (fmul64 (s.wts.read i) (s.stor.read (s.phys i)))) 0x0000000000000000#64 := by
  simp [dot, State.weights, State.logical, List.zip_map', List.foldl_map]

/-- The state after a FILTER in FIR mode (R110). -/
def State.filtered (s : State) : State :=
  { s.pushed with dout := dot s.weights s.pushed.logical, code := .ok }

namespace State.Inv

section
variable {s : State} (h : s.Inv) (hm : s.mode = .fir)
include h hm

theorem completes_filter : Completes .filter s s.filtered := by
  have hobj : s.mode ≠ .unconfigured := by simp [hm]
  have hmac := State.macUpTo_eq (s := s.pushed) hm (h.cap_range hobj).2 le_rfl
  refine .filter hm (h.phys_range hobj 0) (hmac.trans ?_)
  exact congrArg Except.ok s.pushed.dot_weights_logical.symm

theorem exec_filter : exec .filter s = .next s.filtered := exec_of_completes (h.completes_filter hm)

theorem filtered : s.filtered.Inv := (h.completes_filter hm).inv h (h.rst_low (by simp [hm]))

end

end State.Inv

@[simp] theorem firOutputs_length (ws hist xs : List Word64) : (firOutputs ws hist xs).length = xs.length := by
  simp [firOutputs]

/-- The first output is the dot product with the history after the first sample; the others are those of that history
(R110). -/
theorem firOutputs_cons {ws hist hist' xs : List Word64} {x o : Word64} (hshift : o :: hist' = hist ++ [x])
    (hlen : hist'.length = ws.length) : firOutputs ws hist (x :: xs) = dot ws hist' :: firOutputs ws hist' xs := by
  have hall : hist ++ x :: xs = o :: (hist' ++ xs) := by
    rw [← List.cons_append, hshift, List.append_assoc]
    rfl
  rw [firOutputs, hall, List.length_cons, List.range_succ_eq_map, List.map_cons, List.map_map, List.drop_succ_cons,
    List.drop_zero, List.take_left' hlen]
  rfl

/-- Dropping at least as many values as the history has leaves nothing of it. -/
theorem drop_history_congr {hist hist' : List Word64} (xs : List Word64) (hlen : hist.length = hist'.length) {i : Nat}
    (hi : hist.length ≤ i) : (hist ++ xs).drop i = (hist' ++ xs).drop i := by
  have hnil : hist.drop i = [] := List.drop_eq_nil_of_le hi
  have hnil' : hist'.drop i = [] := List.drop_eq_nil_of_le (hlen ▸ hi)
  rw [List.drop_append, List.drop_append, hnil, hnil', hlen]

/-- The windows that end once the history has been shifted out do not depend on it (R111 (a)). -/
theorem drop_firOutputs_congr {ws hist hist' : List Word64} (xs : List Word64) (hlen : hist.length = ws.length)
    (hlen' : hist'.length = ws.length) :
    (firOutputs ws hist xs).drop (ws.length - 1) = (firOutputs ws hist' xs).drop (ws.length - 1) := by
  rw [firOutputs, firOutputs, ← List.map_drop, ← List.map_drop]
  refine List.map_congr_left fun k hk => ?_
  have hk : ws.length - 1 ≤ k := by
    rw [List.range_eq_range', List.drop_range', List.mem_range'_1] at hk
    omega
  rw [drop_history_congr xs (hlen.trans hlen'.symm) (by omega)]

/-- FILTERs one after the other give the outputs of the source's filter, and shift the samples through the delay line
(R110, R111 (a)). -/
theorem feed_filter {s : State} (xs : List Word64) (h : s.Inv) (hm : s.mode = .fir) :
    ∃ u, feed .filter xs s = some (firOutputs s.weights s.logical xs, u) ∧
      u.logical = (s.logical ++ xs).drop xs.length ∧ u.weights = s.weights ∧ u.mode = .fir := by
  induction xs generalizing s with
  | nil => exact ⟨s, rfl, by simp, rfl, hm⟩
  | cons x xs ih =>
    have hobj : s.mode ≠ .unconfigured := by simp [hm]
    have hx : ({ s with din := x } : State).Inv := h.with_registers (h.rst_low hobj) _ _ _ _ _
    let t := ({ s with din := x } : State).filtered
    have hshift : s.stor.read (s.phys 0) :: t.logical = s.logical ++ [x] := hx.logical_pushed hobj
    obtain ⟨u, hfeed, hlogical, hweights, hmode⟩ := ih (hx.filtered hm) hm
    have houts := firOutputs_cons (xs := xs) hshift (t.logical_length.trans s.weights_length.symm)
    refine ⟨u, ?_, ?_, hweights, hmode⟩
    · rw [houts]
      exact feed_cons (hx.exec_filter hm) hfeed
    · calc u.logical
          = (s.stor.read (s.phys 0) :: t.logical ++ xs).drop (xs.length + 1) := hlogical
        _ = (s.logical ++ x :: xs).drop (x :: xs).length := by
          rw [hshift, List.append_assoc]
          rfl

end Sys2Proof.Machine

/-! The settled statements about FILTER. -/

namespace Sys2Proof.Machine

/-- Settles O48: FILTER pushes as RBPUSH does, and its sum runs over the delay line after the push. -/
theorem filterPushesAndConvolves : Obligations.FilterPushesAndConvolves := by
  intro s h
  refine ⟨runCommand_encode .filter s, fun w hop hne => runCommand_of_ne_encode (i := .filter) (by decide) hop hne s,
    fun hm => exec_of_admission (by rw [hm]; rfl), fun hm => exec_of_admission (by rw [hm]; rfl), fun hm => ?_⟩
  obtain ⟨hslot, -⟩ := h.phys_range (by simp [hm]) 0
  exact ⟨_, h.exec_filter hm, rfl, s.pushed_tail_toNat hslot, h.read_pushed, s.pushed.dot_weights_logical⟩

/-- Settles O49 (`feed_filter`). -/
theorem filterRefinesConvolution : Obligations.FilterRefinesConvolution := fun _ xs h hm => feed_filter xs h hm

/-- Settles O50: both runs are runs of the source's filter, and CAP samples fill the window. -/
theorem outputDependsOnTheWindow : Obligations.OutputDependsOnTheWindow := by
  intro s t xs ys zs u v hs ht hsm htm hweights hlen hfs hft
  obtain ⟨u', hfs', hu, -⟩ := feed_filter xs hs hsm
  obtain ⟨v', hft', hv, -⟩ := feed_filter xs ht htm
  cases hfs.symm.trans hfs'
  cases hft.symm.trans hft'
  have hfull : s.logical.length = s.weights.length := s.logical_length.trans s.weights_length.symm
  have hfull' : t.logical.length = s.weights.length := by rw [hweights, t.logical_length, t.weights_length]
  rw [← hweights, hu, hv, ← s.weights_length]
  refine ⟨drop_firOutputs_congr xs hfull hfull', drop_history_congr xs (hfull.trans hfull'.symm) ?_⟩
  rwa [s.logical_length]

end Sys2Proof.Machine

/-! SUPPORT. A binary64 word as a sign and a magnitude, its exponent and fraction fields as one number (R112, R114). -/

namespace Sys2Proof.Machine

/-- The exponent and fraction fields as one 63-bit number, bits 62:0. -/
def magnitude (x : Word64) : Nat := x.toNat % 2 ^ 63

/-- The units of 2^-1074 of a finite magnitude. -/
def magnitudeUnits (m : Nat) : Nat :=
  if m / 2 ^ 52 = 0 then m % 2 ^ 52 else (2 ^ 52 + m % 2 ^ 52) * 2 ^ (m / 2 ^ 52 - 1)

theorem expField_eq (x : Word64) : expField x = magnitude x / 2 ^ 52 := by
  unfold expField magnitude
  omega

theorem fracField_eq (x : Word64) : fracField x = magnitude x % 2 ^ 52 := by
  unfold fracField magnitude
  omega

theorem units_eq (x : Word64) : units x = magnitudeUnits (magnitude x) := by
  rw [units, expField_eq, fracField_eq, magnitudeUnits]

theorem magnitude_lt (x : Word64) : magnitude x < 2 ^ 63 := Nat.mod_lt _ (by decide)

theorem isNaN_iff {x : Word64} : isNaN x = true ↔ infMagnitude < magnitude x := by
  have := magnitude_lt x
  simp only [isNaN, expField_eq, fracField_eq, infMagnitude, decide_eq_true_eq]
  omega

theorem isInf_iff {x : Word64} : isInf x = true ↔ magnitude x = infMagnitude := by
  simp only [isInf, expField_eq, fracField_eq, infMagnitude, decide_eq_true_eq]
  omega

theorem isZero_iff {x : Word64} : isZero x = true ↔ magnitude x = 0 := by
  simp only [isZero, expField_eq, fracField_eq, decide_eq_true_eq]
  omega

theorem isFinite_iff {x : Word64} : isFinite x = true ↔ magnitude x < infMagnitude := by
  have := magnitude_lt x
  simp only [isFinite, expField_eq, infMagnitude, decide_eq_true_eq]
  omega

theorem toNat_eq_sign_add_magnitude (x : Word64) : x.toNat = (if isNeg x then 2 ^ 63 else 0) + magnitude x := by
  have := x.isLt
  simp only [isNeg, magnitude, BitVec.msb_eq_decide, decide_eq_true_eq]
  split_ifs <;> omega

/-- A word is its sign and its magnitude. -/
theorem withSign_isNeg_magnitude (x : Word64) : withSign (isNeg x) (magnitude x) = x := by
  rw [withSign, ← toNat_eq_sign_add_magnitude, BitVec.ofNat_toNat, BitVec.setWidth_eq]

section
variable {m : Nat} (neg : Bool) (h : m < 2 ^ 63)
include h

theorem toNat_withSign : (withSign neg m).toNat = (if neg then 2 ^ 63 else 0) + m := by
  rw [withSign, BitVec.toNat_ofNat]
  split_ifs <;> omega

theorem isNeg_withSign : isNeg (withSign neg m) = neg := by
  rw [isNeg, BitVec.msb_eq_decide, toNat_withSign neg h]
  cases neg
  · simpa using h
  · simp

theorem magnitude_withSign : magnitude (withSign neg m) = m := by
  rw [magnitude, toNat_withSign neg h]
  split_ifs <;> omega

end

/-! ### The units of a magnitude -/

/-- A magnitude of exponent field 0 is its own number of units: the subnormals (R114). -/
theorem magnitudeUnits_of_lt {m : Nat} (h : m < 2 ^ 52) : magnitudeUnits m = m := by
  rw [magnitudeUnits, Nat.div_eq_of_lt h, if_pos rfl, Nat.mod_eq_of_lt h]

/-- The units of a magnitude given by its exponent field e + 1 and its fraction field f. -/
theorem magnitudeUnits_of_fields (e : Nat) {f : Nat} (hf : f < 2 ^ 52) :
    magnitudeUnits ((e + 1) * 2 ^ 52 + f) = (2 ^ 52 + f) * 2 ^ e := by
  have hexp : ((e + 1) * 2 ^ 52 + f) / 2 ^ 52 = e + 1 := by omega
  have hfrac : ((e + 1) * 2 ^ 52 + f) % 2 ^ 52 = f := by omega
  rw [magnitudeUnits, hexp, hfrac, if_neg (Nat.succ_ne_zero e), Nat.add_sub_cancel]

/-- The magnitude of a significand q of at most 53 digits, followed by e zeros; only with e = 0 may q be shorter. At
q = 2^53 the carry goes into the exponent field. -/
theorem magnitudeUnits_significand {e q : Nat} (hle : q ≤ 2 ^ 53) (hnorm : e ≠ 0 → 2 ^ 52 ≤ q) :
    magnitudeUnits (e * 2 ^ 52 + q) = q * 2 ^ e := by
  obtain hlt | ⟨f, rfl⟩ := (Nat.lt_or_ge q (2 ^ 52)).imp_right Nat.exists_eq_add_of_le
  · obtain rfl : e = 0 := by
      by_contra he
      exact absurd (hnorm he) (Nat.not_le.2 hlt)
    rw [Nat.zero_mul, Nat.zero_add, magnitudeUnits_of_lt hlt, Nat.pow_zero, Nat.mul_one]
  · obtain hf | rfl : f < 2 ^ 52 ∨ f = 2 ^ 52 := by omega
    · rw [← Nat.add_assoc, ← Nat.succ_mul, magnitudeUnits_of_fields e hf]
    · rw [show e * 2 ^ 52 + (2 ^ 52 + 2 ^ 52) = (e + 1 + 1) * 2 ^ 52 + 0 by omega,
        magnitudeUnits_of_fields (e + 1) (by decide), pow_succ]
      ring

/-- The next magnitude is larger by one unit in the last place. -/
theorem magnitudeUnits_succ (m : Nat) : magnitudeUnits (m + 1) = magnitudeUnits m + 2 ^ (m / 2 ^ 52 - 1) := by
  obtain ⟨e, q, rfl, hexp, hlt, hnorm⟩ : ∃ e q, m = e * 2 ^ 52 + q ∧ m / 2 ^ 52 - 1 = e ∧ q < 2 ^ 53 ∧
      (e ≠ 0 → 2 ^ 52 ≤ q) :=
    ⟨m / 2 ^ 52 - 1, m - (m / 2 ^ 52 - 1) * 2 ^ 52, by omega, rfl, by omega, by omega⟩
  rw [hexp, Nat.add_assoc, magnitudeUnits_significand (by omega) (by omega),
    magnitudeUnits_significand hlt.le hnorm, Nat.succ_mul]

theorem magnitudeUnits_strictMono : StrictMono magnitudeUnits :=
  strictMono_nat_of_lt_succ fun m => by
    rw [magnitudeUnits_succ]
    exact Nat.lt_add_of_pos_right (Nat.two_pow_pos _)

end Sys2Proof.Machine

/-! SUPPORT. Rounding to nearest, ties to even (R114): what `roundUnits` gives, among all magnitudes. -/

namespace Sys2Proof.Machine

/-- A magnitude in units of 2^-(1074+k). -/
def scaledUnits (k m : Nat) : Nat := magnitudeUnits m * 2 ^ k

theorem scaledUnits_strictMono (k : Nat) : StrictMono (scaledUnits k) :=
  magnitudeUnits_strictMono.mul_const (Nat.two_pow_pos k)

/-- How many low digits `roundUnits` drops: enough to leave 53, and those below 2^-1074 in any case. -/
def droppedDigits (n k : Nat) : Nat := max k (bitLength n - 53)

/-- What `roundUnits` gives before it stops at infinity, so that overflow too is a rounding to nearest. -/
def roundedMagnitude (n k : Nat) : Nat := (droppedDigits n k - k) * 2 ^ 52 + roundShift n (droppedDigits n k)

theorem roundUnits_eq (n k : Nat) : roundUnits n k = min (roundedMagnitude n k) infMagnitude := rfl

theorem lt_two_pow_bitLength (n : Nat) : n < 2 ^ bitLength n := by
  unfold bitLength
  split_ifs with hn
  · simp [hn]
  · exact Nat.lt_log2_self

theorem two_pow_bitLength_le {n : Nat} (h : n ≠ 0) : 2 ^ (bitLength n - 1) ≤ n := by
  rw [bitLength, if_neg h]
  exact Nat.log2_self_le h

/-- The significand that is left has at most 53 digits, and has them all if more than the k digits were dropped. -/
theorem significand_range (n k : Nat) :
    n / 2 ^ droppedDigits n k < 2 ^ 53 ∧ (droppedDigits n k - k ≠ 0 → 2 ^ 52 ≤ n / 2 ^ droppedDigits n k) := by
  unfold droppedDigits
  refine ⟨Nat.div_lt_of_lt_mul ((lt_two_pow_bitLength n).trans_le ?_), fun hk => ?_⟩
  · rw [← pow_add]
    exact Nat.pow_le_pow_right (by decide) (by omega)
  · have hn : n ≠ 0 := by
      rintro rfl
      rw [bitLength, if_pos rfl] at hk
      omega
    rw [Nat.le_div_iff_mul_le (Nat.two_pow_pos _), ← pow_add]
    exact (Nat.pow_le_pow_right (by decide) (by omega)).trans (two_pow_bitLength_le hn)

/-- n lies between two neighbouring magnitudes, and `roundedMagnitude` is the nearer; of two as near, the even one. -/
theorem roundedMagnitude_cases (n k : Nat) :
    ∃ m gap r, scaledUnits k m + r = n ∧ r < gap ∧ scaledUnits k (m + 1) = scaledUnits k m + gap ∧
      ((roundedMagnitude n k = m ∧ 2 * r ≤ gap) ∨ (roundedMagnitude n k = m + 1 ∧ gap ≤ 2 * r)) ∧
      (2 * r = gap → roundedMagnitude n k % 2 = 0) := by
  obtain ⟨hlt, hnorm⟩ := significand_range n k
  have hk : k ≤ droppedDigits n k := le_max_left ..
  unfold roundedMagnitude
  generalize droppedDigits n k = d at hlt hnorm hk
  have hscale (q : Nat) (hle : q ≤ 2 ^ 53) (hnorm : d - k ≠ 0 → 2 ^ 52 ≤ q) :
      scaledUnits k ((d - k) * 2 ^ 52 + q) = q * 2 ^ d := by
    rw [scaledUnits, magnitudeUnits_significand hle hnorm, Nat.mul_assoc, ← pow_add, Nat.sub_add_cancel hk]
  refine ⟨(d - k) * 2 ^ 52 + n / 2 ^ d, 2 ^ d, n % 2 ^ d, ?_, Nat.mod_lt _ (Nat.two_pow_pos d), ?_, ?_⟩
  · rw [hscale _ hlt.le hnorm, Nat.div_add_mod']
  · rw [Nat.add_assoc, hscale _ hlt (by omega), hscale _ hlt.le hnorm, Nat.succ_mul]
  · unfold roundShift
    dsimp only
    split_ifs <;> omega

/-- No magnitude is nearer to n than the rounded one, and the rounded one is even if another is as near. -/
theorem roundedMagnitude_nearest (n k m : Nat) :
    (scaledUnits k (roundedMagnitude n k)).dist n ≤ (scaledUnits k m).dist n ∧
      ((scaledUnits k (roundedMagnitude n k)).dist n = (scaledUnits k m).dist n →
        m ≠ roundedMagnitude n k → roundedMagnitude n k % 2 = 0) := by
  obtain ⟨lo, gap, r, hn, hr, hhi, hround, htie⟩ := roundedMagnitude_cases n k
  have hm : scaledUnits k m < scaledUnits k lo ∨ m = lo ∨ m = lo + 1 ∨
      scaledUnits k (lo + 1) < scaledUnits k m := by
    simp only [(scaledUnits_strictMono k).lt_iff_lt]
    omega
  unfold Nat.dist
  obtain ⟨hR, hle⟩ | ⟨hR, hle⟩ := hround
  · rw [hR] at htie ⊢
    obtain hm | rfl | rfl | hm := hm <;> omega
  · rw [hR] at htie ⊢
    obtain hm | rfl | rfl | hm := hm <;> omega

/-- A magnitude is rounded to itself. -/
theorem roundedMagnitude_scaledUnits (k m : Nat) : roundedMagnitude (scaledUnits k m) k = m := by
  have hnear := (roundedMagnitude_nearest (scaledUnits k m) k m).1
  rw [Nat.dist_self, Nat.le_zero] at hnear
  exact (scaledUnits_strictMono k).injective (Nat.eq_of_dist_eq_zero hnear)

/-- A finite magnitude is rounded to itself, well below infinity. -/
theorem roundUnits_scaledUnits {k m : Nat} (h : m < infMagnitude) : roundUnits (scaledUnits k m) k = m := by
  rw [roundUnits_eq, roundedMagnitude_scaledUnits, Nat.min_eq_left h.le]

@[simp] theorem scaledUnits_zero_right (k : Nat) : scaledUnits k 0 = 0 := Nat.zero_mul _

@[simp] theorem scaledUnits_zero_left (m : Nat) : scaledUnits 0 m = magnitudeUnits m := Nat.mul_one _

@[simp] theorem roundedMagnitude_zero (k : Nat) : roundedMagnitude 0 k = 0 := by
  simpa using roundedMagnitude_scaledUnits k 0

/-- Whole units are rounded to +0.0 or -0.0 only if there are none (R114). -/
theorem eq_zero_of_roundedMagnitude {n : Nat} (h : roundedMagnitude n 0 = 0) : n = 0 := by
  have hone := (roundedMagnitude_nearest n 0 1).1
  rw [h, scaledUnits_zero_right, scaledUnits_zero_left, magnitudeUnits_of_lt (by decide), Nat.dist, Nat.dist] at hone
  omega

theorem scaledUnits_infMagnitude (k : Nat) : scaledUnits k infMagnitude = 2 ^ 2098 * 2 ^ k := by
  rw [scaledUnits, show infMagnitude = (2046 + 1) * 2 ^ 52 + 0 by decide, magnitudeUnits_of_fields 2046 (by decide),
    Nat.add_zero, ← pow_add]

/-- The step to the next magnitude, halved. -/
theorem scaledUnits_succ {m e : Nat} (k : Nat) (h : m / 2 ^ 52 = e + 2) :
    scaledUnits k (m + 1) = scaledUnits k m + 2 * (2 ^ e * 2 ^ k) := by
  rw [scaledUnits, magnitudeUnits_succ, h, show e + 2 - 1 = e + 1 by omega, pow_succ, scaledUnits]
  ring

/-- Rounding reaches infinity exactly from half a unit below 2^1024 on: the largest finite magnitude is odd (R114). -/
theorem infMagnitude_le_roundedMagnitude (n k : Nat) :
    infMagnitude ≤ roundedMagnitude n k ↔ 2 ^ 2098 * 2 ^ k ≤ n + 2 ^ 2044 * 2 ^ k := by
  have habove : infMagnitude ≤ roundedMagnitude n k → 2 ^ 2098 * 2 ^ k ≤ scaledUnits k (roundedMagnitude n k) :=
    fun h => (scaledUnits_infMagnitude k).symm.trans_le ((scaledUnits_strictMono k).monotone h)
  have hbelow : roundedMagnitude n k < infMagnitude → roundedMagnitude n k = infMagnitude - 1 ∨
      scaledUnits k (roundedMagnitude n k) < scaledUnits k (infMagnitude - 1) :=
    fun h => (Nat.eq_or_lt_of_le (Nat.le_pred_of_lt h)).imp_right (scaledUnits_strictMono k ·)
  have hlast := scaledUnits_succ (m := infMagnitude - 1) (e := 2044) k (by decide)
  have hpos : 0 < 2 ^ 2044 * 2 ^ k := by positivity
  have hodd : (infMagnitude - 1) % 2 = 1 := by decide
  obtain ⟨hnearInf, htie⟩ := roundedMagnitude_nearest n k infMagnitude
  have hnearLast := (roundedMagnitude_nearest n k (infMagnitude - 1)).1
  rw [Nat.sub_add_cancel (by decide), scaledUnits_infMagnitude] at hlast
  rw [scaledUnits_infMagnitude] at hnearInf htie
  generalize 2 ^ 2044 * 2 ^ k = half at *
  generalize 2 ^ 2098 * 2 ^ k = inf at *
  unfold Nat.dist at *
  refine ⟨fun hle => ?_, fun hn => ?_⟩
  · have hge := habove hle
    omega
  · by_contra hlt
    obtain hR | hR := hbelow (Nat.lt_of_not_le hlt)
    · rw [hR] at hnearInf htie
      omega
    · omega

end Sys2Proof.Machine

/-! SUPPORT. The product and the sum by cases (R112, R113, R115): NaN, infinity, and finite operands, rounded once. -/

namespace Sys2Proof.Machine

/-! ### Classes of words -/

theorem word64_ext {a b : Word64} (hneg : isNeg a = isNeg b) (hmag : magnitude a = magnitude b) : a = b := by
  rw [← withSign_isNeg_magnitude a, ← withSign_isNeg_magnitude b, hneg, hmag]

theorem roundUnits_le (n k : Nat) : roundUnits n k ≤ infMagnitude := Nat.min_le_right ..

/-- A rounded magnitude has a word. -/
theorem lt_of_le_infMagnitude {m : Nat} (h : m ≤ infMagnitude) : m < 2 ^ 63 := h.trans_lt (by decide)

theorem isNaN_withSign {m : Nat} (neg : Bool) (h : m ≤ infMagnitude) : isNaN (withSign neg m) = false := by
  rw [Bool.eq_false_iff, ne_eq, isNaN_iff, magnitude_withSign neg (lt_of_le_infMagnitude h)]
  omega

theorem isNaN_canonicalNaN : isNaN canonicalNaN = true := by decide

theorem isInf_withSign (neg : Bool) : isInf (withSign neg infMagnitude) = true :=
  isInf_iff.2 (magnitude_withSign neg (lt_of_le_infMagnitude le_rfl))

/-- A word is a NaN, an infinity or finite. -/
theorem class_cases (x : Word64) : isNaN x = true ∨ isInf x = true ∨ isFinite x = true := by
  rw [isNaN_iff, isInf_iff, isFinite_iff]
  omega

theorem not_isNaN_of_isInf {x : Word64} (h : isInf x = true) : isNaN x = false := by
  simp only [← Bool.not_eq_true, isNaN_iff, isInf_iff] at h ⊢
  omega

theorem not_isNaN_of_isFinite {x : Word64} (h : isFinite x = true) : isNaN x = false := by
  simp only [← Bool.not_eq_true, isNaN_iff, isFinite_iff] at h ⊢
  omega

theorem not_isInf_of_isFinite {x : Word64} (h : isFinite x = true) : isInf x = false := by
  simp only [← Bool.not_eq_true, isInf_iff, isFinite_iff] at h ⊢
  omega

theorem isFinite_of_isZero {x : Word64} (h : isZero x = true) : isFinite x = true := by
  rw [isZero_iff] at h
  rw [isFinite_iff, h]
  decide

theorem eq_negZero_iff {x : Word64} : x = 0x8000000000000000#64 ↔ isNeg x = true ∧ magnitude x = 0 := by
  constructor
  · rintro rfl
    decide
  · rintro ⟨hneg, hmag⟩
    exact word64_ext (hneg.trans (by decide)) (hmag.trans (by decide))

theorem isNeg_xor_sign (x : Word64) : isNeg (x ^^^ 0x8000000000000000#64) = !isNeg x := by
  rw [isNeg, BitVec.msb_xor, isNeg, show BitVec.msb 0x8000000000000000#64 = true by decide, Bool.xor_true]

theorem magnitude_xor_sign (x : Word64) : magnitude (x ^^^ 0x8000000000000000#64) = magnitude x := by
  rw [magnitude, BitVec.toNat_xor, Nat.xor_mod_two_pow, magnitude]
  exact Nat.xor_zero _

/-! ### The product -/

section
variable {a b : Word64}

theorem fmul64_of_isNaN (h : isNaN a = true ∨ isNaN b = true) : fmul64 a b = canonicalNaN := by
  simp [fmul64, h]

theorem fmul64_of_isInf (ha : isInf a = true) (hb : isNaN b = false) :
    fmul64 a b = if isZero b then canonicalNaN else withSign (isNeg a ^^ isNeg b) infMagnitude := by
  have hzero : isZero a = false := by
    simp only [← Bool.not_eq_true, isInf_iff, isZero_iff] at ha ⊢
    rw [ha]
    decide
  simp [fmul64, not_isNaN_of_isInf ha, ha, hb, hzero]

theorem fmul64_of_isFinite (ha : isFinite a = true) (hb : isFinite b = true) :
    fmul64 a b = withSign (isNeg a ^^ isNeg b) (roundUnits (units a * units b) 1074) := by
  simp [fmul64, not_isNaN_of_isFinite, not_isInf_of_isFinite, ha, hb]

theorem fmul64_comm (a b : Word64) : fmul64 a b = fmul64 b a := by
  simp only [fmul64, Bool.or_comm, Bool.xor_comm, Nat.mul_comm]

/-! ### The sum -/

theorem fadd64_of_isNaN (h : isNaN a = true ∨ isNaN b = true) : fadd64 a b = canonicalNaN := by
  simp [fadd64, h]

theorem fadd64_of_isInf (ha : isInf a = true) (hb : isNaN b = false) :
    fadd64 a b = if isInf b && isNeg a != isNeg b then canonicalNaN else a := by
  simp [fadd64, not_isNaN_of_isInf ha, ha, hb]

theorem fadd64_of_isFinite (ha : isFinite a = true) (hb : isFinite b = true) :
    fadd64 a b =
      if signedUnits a + signedUnits b = 0 then withSign (isNeg a && isNeg b) 0
      else withSign (decide (signedUnits a + signedUnits b < 0))
        (roundUnits (signedUnits a + signedUnits b).natAbs 0) := by
  simp [fadd64, not_isNaN_of_isFinite, not_isInf_of_isFinite, ha, hb]

end

/-- R112, R115: a product is the canonical NaN, or has the XOR of the signs and a magnitude up to infinity. -/
theorem fmul64_cases (a b : Word64) :
    fmul64 a b = canonicalNaN ∨ ∃ m ≤ infMagnitude, fmul64 a b = withSign (isNeg a ^^ isNeg b) m := by
  unfold fmul64
  split_ifs
  · exact .inl rfl
  · exact .inl rfl
  · exact .inr ⟨_, le_rfl, rfl⟩
  · exact .inr ⟨_, roundUnits_le _ _, rfl⟩

/-- An infinity and a finite value, in either order, make that infinity (R113). -/
theorem fadd64_of_isInf_isFinite {a b : Word64} (ha : isInf a = true) (hb : isFinite b = true) :
    fadd64 a b = a ∧ fadd64 b a = a := by
  simp [fadd64, not_isNaN_of_isInf ha, not_isNaN_of_isFinite hb, not_isInf_of_isFinite hb, ha]

/-- R113: the sum is commutative; two infinities of the same sign are the same word. -/
theorem fadd64_comm (a b : Word64) : fadd64 a b = fadd64 b a := by
  obtain ha | ha | ha := class_cases a
  · rw [fadd64_of_isNaN (.inl ha), fadd64_of_isNaN (.inr ha)]
  · obtain hb | hb | hb := class_cases b
    · rw [fadd64_of_isNaN (.inr hb), fadd64_of_isNaN (.inl hb)]
    · have hmag : magnitude a = magnitude b := (isInf_iff.1 ha).trans (isInf_iff.1 hb).symm
      by_cases hsign : isNeg a = isNeg b
      · rw [word64_ext hsign hmag]
      · simp [fadd64_of_isInf, not_isNaN_of_isInf, ha, hb, hsign, Ne.symm hsign]
    · rw [(fadd64_of_isInf_isFinite ha hb).1, (fadd64_of_isInf_isFinite ha hb).2]
  · obtain hb | hb | hb := class_cases b
    · rw [fadd64_of_isNaN (.inr hb), fadd64_of_isNaN (.inl hb)]
    · rw [(fadd64_of_isInf_isFinite hb ha).1, (fadd64_of_isInf_isFinite hb ha).2]
    · rw [fadd64_of_isFinite ha hb, fadd64_of_isFinite hb ha, Int.add_comm, Bool.and_comm]

/-- R113, R115: a sum is the canonical NaN, an infinite operand, or the sum of finite operands. -/
theorem fadd64_cases (a b : Word64) :
    fadd64 a b = canonicalNaN ∨ (isInf a = true ∧ fadd64 a b = a) ∨ (isInf b = true ∧ fadd64 a b = b) ∨
      (isFinite a = true ∧ isFinite b = true) := by
  obtain ha | ha | ha := class_cases a
  · exact .inl (fadd64_of_isNaN (.inl ha))
  · cases hb : isNaN b with
    | true => exact .inl (fadd64_of_isNaN (.inr hb))
    | false =>
      rw [fadd64_of_isInf ha hb]
      split_ifs
      · exact .inl rfl
      · exact .inr (.inl ⟨ha, rfl⟩)
  · obtain hb | hb | hb := class_cases b
    · exact .inl (fadd64_of_isNaN (.inr hb))
    · exact .inr (.inr (.inl ⟨hb, (fadd64_of_isInf_isFinite hb ha).2⟩))
    · exact .inr (.inr (.inr ⟨ha, hb⟩))

/-! ### Signed units -/

theorem signedUnits_mul_two_pow (x : Word64) (k : Nat) :
    signedUnits x * 2 ^ k =
      if isNeg x then -(scaledUnits k (magnitude x) : Int) else (scaledUnits k (magnitude x) : Int) := by
  simp only [signedUnits, units_eq, scaledUnits]
  split_ifs <;> push_cast <;> ring

theorem natAbs_signedUnits_mul_two_pow (x : Word64) (k : Nat) :
    (signedUnits x * 2 ^ k).natAbs = scaledUnits k (magnitude x) := by
  rw [signedUnits_mul_two_pow]
  split_ifs <;> simp

/-- The magnitudes are no further apart than the values. -/
theorem dist_natAbs_le (x y : Int) : x.natAbs.dist y.natAbs ≤ (x - y).natAbs := by
  unfold Nat.dist
  omega

theorem natAbs_signedUnits (x : Word64) : (signedUnits x).natAbs = units x := by
  unfold signedUnits
  split_ifs <;> simp

theorem units_eq_zero_iff {x : Word64} : units x = 0 ↔ magnitude x = 0 := by
  rw [units_eq]
  exact magnitudeUnits_strictMono.injective.eq_iff' rfl

theorem signedUnits_eq_zero_iff {x : Word64} : signedUnits x = 0 ↔ magnitude x = 0 := by
  rw [← Int.natAbs_eq_zero, natAbs_signedUnits, units_eq_zero_iff]

theorem decide_signedUnits_lt_zero {x : Word64} (h : signedUnits x ≠ 0) : decide (signedUnits x < 0) = isNeg x := by
  unfold signedUnits at h ⊢
  split_ifs at h ⊢ with hneg
  · simp only [hneg, decide_eq_true_eq]
    omega
  · simp only [hneg, decide_eq_false_iff_not]
    omega

/-- Opposite values add up to +0.0 (R113). -/
theorem fadd64_neg {x : Word64} (hx : isFinite x = true) :
    fadd64 x (x ^^^ 0x8000000000000000#64) = 0x0000000000000000#64 := by
  have hfin : isFinite (x ^^^ 0x8000000000000000#64) = true := by
    rw [isFinite_iff, magnitude_xor_sign]
    exact isFinite_iff.1 hx
  have hsum : signedUnits x + signedUnits (x ^^^ 0x8000000000000000#64) = 0 := by
    simp only [signedUnits, isNeg_xor_sign, units_eq, magnitude_xor_sign]
    cases isNeg x <;> simp
  rw [fadd64_of_isFinite hx hfin, if_pos hsum, isNeg_xor_sign, Bool.and_not_self]
  rfl

/-- A zero leaves a finite value other than -0.0 alone (R113). -/
theorem fadd64_zero_left {z a : Word64} (hz : isZero z = true) (ha : isFinite a = true)
    (hne : a ≠ 0x8000000000000000#64) : fadd64 z a = a := by
  have hzero : signedUnits z = 0 := signedUnits_eq_zero_iff.2 (isZero_iff.1 hz)
  rw [fadd64_of_isFinite (isFinite_of_isZero hz) ha, hzero, Int.zero_add]
  split_ifs with hsum
  · have hmag := signedUnits_eq_zero_iff.1 hsum
    have hpos : isNeg a = false := by
      by_contra hneg
      exact hne (eq_negZero_iff.2 ⟨by simpa using hneg, hmag⟩)
    rw [hpos, Bool.and_false, ← hpos, ← hmag, withSign_isNeg_magnitude]
  · rw [decide_signedUnits_lt_zero hsum, natAbs_signedUnits, units_eq, ← scaledUnits_zero_left,
      roundUnits_scaledUnits (isFinite_iff.1 ha), withSign_isNeg_magnitude]

/-- The last bit of a word is that of its magnitude. -/
theorem getLsbD_zero_eq_false_iff {x : Word64} : x.getLsbD 0 = false ↔ magnitude x % 2 = 0 := by
  rw [← BitVec.testBit_toNat, Nat.testBit_zero, magnitude, decide_eq_false_iff_not]
  omega

/-- `Rounds k x r`: r is x units of 2^-(1074+k), rounded once (R114); an exact zero may have either sign. -/
def Rounds (k : Nat) (x : Int) (r : Word64) : Prop :=
  ∃ neg, (x ≠ 0 → neg = decide (x < 0)) ∧ r = withSign neg (roundUnits x.natAbs k)

/-- The exact product of finite values, rounded once (R112). -/
theorem rounds_fmul64 {a b : Word64} (ha : isFinite a = true) (hb : isFinite b = true) :
    Rounds 1074 (signedUnits a * signedUnits b) (fmul64 a b) := by
  refine ⟨isNeg a ^^ isNeg b, fun hne => ?_, ?_⟩
  · have hpos : (0 : Int) < units a * units b := by
      rw [← natAbs_signedUnits, ← natAbs_signedUnits, ← Int.natCast_mul, ← Int.natAbs_mul]
      exact Int.natCast_pos.2 (Int.natAbs_pos.2 hne)
    unfold signedUnits
    cases isNeg a <;> cases isNeg b <;> simp [hpos, hpos.le]
  · rw [fmul64_of_isFinite ha hb, Int.natAbs_mul, natAbs_signedUnits, natAbs_signedUnits]

/-- The exact sum of finite values, rounded once (R113). -/
theorem rounds_fadd64 {a b : Word64} (ha : isFinite a = true) (hb : isFinite b = true) :
    Rounds 0 (signedUnits a + signedUnits b) (fadd64 a b) := by
  rw [fadd64_of_isFinite ha hb]
  split_ifs with hzero
  · refine ⟨isNeg a && isNeg b, fun hne => absurd hzero hne, ?_⟩
    rw [hzero, Int.natAbs_zero, roundUnits_eq, roundedMagnitude_zero]
    rfl
  · exact ⟨_, fun _ => rfl, rfl⟩

section
variable {k : Nat} {x : Int} {r : Word64} (h : Rounds k x r)
include h

theorem Rounds.magnitude : magnitude r = min (roundedMagnitude x.natAbs k) infMagnitude := by
  obtain ⟨neg, -, rfl⟩ := h
  exact magnitude_withSign neg (lt_of_le_infMagnitude (roundUnits_le _ _))

theorem Rounds.isNaN : isNaN r = false := by
  obtain ⟨neg, -, rfl⟩ := h
  exact isNaN_withSign neg (roundUnits_le _ _)

theorem Rounds.isNeg (hx : x ≠ 0) : isNeg r = decide (x < 0) := by
  obtain ⟨neg, hneg, rfl⟩ := h
  rw [isNeg_withSign neg (lt_of_le_infMagnitude (roundUnits_le _ _)), hneg hx]

/-- A rounded value is infinite exactly from the rounding threshold on (R114). -/
theorem Rounds.isFinite_eq_false_iff : isFinite r = false ↔ (2 ^ 2098 - 2 ^ 2044 : Int) * 2 ^ k ≤ |x| := by
  have hthreshold := infMagnitude_le_roundedMagnitude x.natAbs k
  rw [← Bool.not_eq_true, isFinite_iff, h.magnitude, Int.abs_eq_natAbs, sub_mul, sub_le_iff_le_add]
  norm_cast
  rw [← hthreshold]
  omega

theorem Rounds.isInf_of_isFinite_eq_false (hr : isFinite r = false) : isInf r = true := by
  rw [← Bool.not_eq_true, isFinite_iff, h.magnitude] at hr
  rw [isInf_iff, h.magnitude]
  omega

/-- A rounded value has the sign of the exact one, so that their distance is that of their magnitudes. -/
theorem Rounds.natAbs_sub :
    (signedUnits r * 2 ^ k - x).natAbs = (scaledUnits k (Machine.magnitude r)).dist x.natAbs := by
  unfold Nat.dist
  rw [signedUnits_mul_two_pow]
  by_cases hx : x = 0
  · split_ifs <;> omega
  · rw [h.isNeg hx]
    split_ifs with hlt <;> rw [decide_eq_true_eq] at hlt <;> omega

/-- A finite rounded value is as near as any finite value, and even where another is as near (R114). -/
theorem Rounds.nearest (hr : isFinite r = true) (c : Word64) :
    |signedUnits r * 2 ^ k - x| ≤ |signedUnits c * 2 ^ k - x| ∧
      (|signedUnits r * 2 ^ k - x| = |signedUnits c * 2 ^ k - x| → signedUnits c ≠ signedUnits r →
        r.getLsbD 0 = false) := by
  have hmag : Machine.magnitude r = roundedMagnitude x.natAbs k := by
    have := h.magnitude
    rw [isFinite_iff] at hr
    omega
  obtain ⟨hle, htie⟩ := roundedMagnitude_nearest x.natAbs k (Machine.magnitude c)
  have hzero := (roundedMagnitude_nearest x.natAbs k 0).1
  rw [← hmag] at hle htie hzero
  have hdist := h.natAbs_sub
  have htriangle := dist_natAbs_le (signedUnits c * 2 ^ k) x
  rw [natAbs_signedUnits_mul_two_pow] at htriangle
  simp only [Int.abs_eq_natAbs, getLsbD_zero_eq_false_iff, Nat.cast_le, Nat.cast_inj]
  refine ⟨hdist.trans_le (hle.trans htriangle), fun heq hne => htie (hle.antisymm ?_) fun hsame => hne ?_⟩
  · rwa [← hdist, heq]
  · have habs : (signedUnits c * 2 ^ k).natAbs = (signedUnits r * 2 ^ k).natAbs := by
      rw [natAbs_signedUnits_mul_two_pow, natAbs_signedUnits_mul_two_pow, hsame]
    rw [scaledUnits_zero_right, ← natAbs_signedUnits_mul_two_pow, Nat.dist, Nat.dist] at hzero
    refine mul_right_cancel₀ (b := (2 : Int) ^ k) (by positivity) ?_
    omega

end

/-- An exact zero is rounded to a zero. -/
theorem Rounds.isFinite_zero {k : Nat} {r : Word64} (h : Rounds k 0 r) : isFinite r = true := by
  refine isFinite_of_isZero (isZero_iff.2 ?_)
  rw [h.magnitude, Int.natAbs_zero, roundedMagnitude_zero, Nat.zero_min]

end Sys2Proof.Machine

/-! The settled statements about the MAC arithmetic. -/

namespace Sys2Proof.Machine

/-- Settles O54: a NaN comes out of the NaN cases of R115 alone, since every other answer has at most the magnitude of
infinity. -/
theorem nanResultsAreCanonical : Obligations.NanResultsAreCanonical := by
  intro a b
  refine ⟨fun h => ?_, fun h => ?_, fun h => ⟨fmul64_of_isNaN h, fadd64_of_isNaN h⟩⟩
  · obtain hnan | ⟨m, hm, he⟩ := fmul64_cases a b
    · exact hnan
    · simp [he, isNaN_withSign _ hm] at h
  · obtain hnan | ⟨hinf, he⟩ | ⟨hinf, he⟩ | ⟨ha, hb⟩ := fadd64_cases a b
    · exact hnan
    · simp [he, not_isNaN_of_isInf hinf] at h
    · simp [he, not_isNaN_of_isInf hinf] at h
    · simp [(rounds_fadd64 ha hb).isNaN] at h

/-- Settles O55, from the cases of the product. -/
theorem productSignAndSpecialCases : Obligations.ProductSignAndSpecialCases := by
  intro a b
  refine ⟨fmul64_comm a b, fun h => ?_, fun ha hb => ?_, fun ha hnb hzb => ?_, fun ha hb => ?_⟩
  · obtain hnan | ⟨m, hm, he⟩ := fmul64_cases a b
    · rw [hnan, isNaN_canonicalNaN] at h
      cases h
    · rw [he, isNeg_withSign _ (lt_of_le_infMagnitude hm)]
  · rw [fmul64_of_isInf ha (not_isNaN_of_isFinite (isFinite_of_isZero hb)), if_pos hb, isNaN_canonicalNaN]
  · rw [fmul64_of_isInf ha hnb, hzb]
    exact isInf_withSign _
  · rw [fmul64_of_isFinite ha hb, isNaN_withSign _ (roundUnits_le _ _)]

/-- Settles O56, from the cases of the sum: x and -x have opposite signs and one magnitude. -/
theorem sumSpecialCases : Obligations.SumSpecialCases := by
  refine ⟨fadd64_comm, fun x hx _ => fadd64_neg hx, by decide, by decide, by decide,
    fun a b ha hb => (fadd64_of_isInf_isFinite ha hb).1, fun a ha hne => fadd64_zero_left (by decide) ha hne⟩

/-- Settles O57 (`rounds_fadd64`): an infinite sum is not 0, and has the exact sum's sign. -/
theorem sumIsCorrectlyRounded : Obligations.SumIsCorrectlyRounded := by
  intro a b ha hb
  have h := rounds_fadd64 ha hb
  have hthreshold := h.isFinite_eq_false_iff
  rw [pow_zero, mul_one] at hthreshold
  refine ⟨fun hr c _ => ?_, hthreshold, fun hr => ⟨h.isInf_of_isFinite_eq_false hr, h.isNeg fun hzero => ?_⟩⟩
  · simpa only [pow_zero, mul_one] using h.nearest hr c
  · rw [hzero] at h
    simp [h.isFinite_zero] at hr

/-- Settles O58 (`rounds_fmul64`). -/
theorem productIsCorrectlyRounded : Obligations.ProductIsCorrectlyRounded := by
  intro a b ha hb
  have h := rounds_fmul64 ha hb
  exact ⟨fun hr c _ => h.nearest hr c, h.isFinite_eq_false_iff, h.isInf_of_isFinite_eq_false⟩

end Sys2Proof.Machine

/-! SUPPORT. The dot product over the MAC arithmetic (R111): it is never -0.0, it keeps a NaN, and zero samples add
nothing to it. -/

namespace Sys2Proof.Machine

/-- A sum is -0.0 only if both operands are (R113). -/
theorem fadd64_ne_negZero {a b : Word64} (ha : a ≠ 0x8000000000000000#64) : fadd64 a b ≠ 0x8000000000000000#64 := by
  intro hsum
  obtain hnan | ⟨-, he⟩ | ⟨hb, he⟩ | ⟨hfa, hfb⟩ := fadd64_cases a b
  · rw [hnan] at hsum
    exact absurd hsum (by decide)
  · exact ha (he ▸ hsum)
  · rw [he.symm.trans hsum] at hb
    exact absurd hb (by decide)
  · obtain ⟨hneg, hmag⟩ := eq_negZero_iff.1 hsum
    have hzero : signedUnits a + signedUnits b = 0 := by
      rw [(rounds_fadd64 hfa hfb).magnitude, infMagnitude] at hmag
      exact Int.natAbs_eq_zero.1 (eq_zero_of_roundedMagnitude (by omega))
    rw [fadd64_of_isFinite hfa hfb, if_pos hzero, isNeg_withSign _ (by decide), Bool.and_eq_true] at hneg
    obtain ⟨hna, hnb⟩ := hneg
    simp only [signedUnits, hna, hnb, if_true] at hzero
    exact ha (eq_negZero_iff.2 ⟨hna, units_eq_zero_iff.1 (by omega)⟩)

/-- R111 (d): the accumulator starts at +0.0 and never becomes -0.0. -/
theorem dot_ne_negZero (ws ds : List Word64) : dot ws ds ≠ 0x8000000000000000#64 :=
  List.foldlRecOn (motive := (· ≠ 0x8000000000000000#64)) _ _ (by decide) fun _ hacc _ _ => fadd64_ne_negZero hacc

/-- R111 (e): a NaN product makes the accumulator the canonical NaN, which then absorbs every product. -/
theorem dot_of_isNaN {ws ds : List Word64} {wd : Word64 × Word64} (hmem : wd ∈ ws.zip ds)
    (hnan : isNaN (fmul64 wd.1 wd.2) = true) : dot ws ds = canonicalNaN := by
  obtain ⟨before, after, hsplit⟩ := List.append_of_mem hmem
  have habsorb (wd : Word64 × Word64) : fadd64 canonicalNaN (fmul64 wd.1 wd.2) = canonicalNaN :=
    fadd64_of_isNaN (.inl isNaN_canonicalNaN)
  rw [dot, hsplit, List.foldl_append, List.foldl_cons, fadd64_of_isNaN (.inr hnan)]
  exact List.foldl_fixed' habsorb after

/-- A finite weight times 0.0 is a zero (R112). -/
theorem isZero_fmul64_zero {w : Word64} (hw : isFinite w = true) : isZero (fmul64 w 0x0000000000000000#64) = true := by
  rw [fmul64_of_isFinite hw (by decide), show units 0x0000000000000000#64 = 0 by decide, Nat.mul_zero, roundUnits_eq,
    roundedMagnitude_zero, isZero_iff]
  exact magnitude_withSign _ (by decide)

/-- A finite weight times 1.0 is that weight (R112). -/
theorem fmul64_one {w : Word64} (hw : isFinite w = true) : fmul64 w 0x3FF0000000000000#64 = w := by
  have hone : units 0x3FF0000000000000#64 = 2 ^ 1074 := by
    rw [units_eq, show magnitude 0x3FF0000000000000#64 = (1022 + 1) * 2 ^ 52 + 0 by decide,
      magnitudeUnits_of_fields 1022 (by decide), Nat.add_zero, ← pow_add]
  rw [fmul64_of_isFinite hw (by decide), hone, units_eq, ← scaledUnits, roundUnits_scaledUnits (isFinite_iff.1 hw),
    show isNeg 0x3FF0000000000000#64 = false by decide, Bool.xor_false, withSign_isNeg_magnitude]

/-- Finite weights over samples that are all 0.0 leave a finite accumulator other than -0.0 alone. -/
theorem foldl_mac_zeros {ws : List Word64} (n : Nat) {acc : Word64} (hws : ∀ w ∈ ws, isFinite w = true)
    (hacc : isFinite acc = true) (hne : acc ≠ 0x8000000000000000#64) :
    (ws.zip (List.replicate n 0x0000000000000000#64)).foldl (fun acc wd => fadd64 acc (fmul64 wd.1 wd.2)) acc =
      acc := by
  refine List.foldlRecOn (motive := (· = acc)) _ _ rfl fun _ heq wd hwd => ?_
  obtain ⟨hw, hd⟩ := List.of_mem_zip hwd
  rw [heq, List.eq_of_mem_replicate hd, fadd64_comm]
  exact fadd64_zero_left (isZero_fmul64_zero (hws _ hw)) hacc hne

/-- A weight as it comes out of the accumulator: -0.0 becomes +0.0 (R111 (b)). -/
def impulseResponse (w : Word64) : Word64 := if w = 0x8000000000000000#64 then 0x0000000000000000#64 else w

theorem fadd64_zero_eq_impulseResponse {w : Word64} (hw : isFinite w = true) :
    fadd64 0x0000000000000000#64 w = impulseResponse w := by
  unfold impulseResponse
  split_ifs with hneg
  · rw [hneg]
    decide
  · exact fadd64_zero_left (by decide) hw hneg

/-- With one sample 1.0 among zeros, the dot product picks out the weight it meets. -/
theorem dot_impulse {before after : List Word64} {w : Word64} (m : Nat)
    (hfin : ∀ v ∈ before ++ w :: after, isFinite v = true) :
    dot (before ++ w :: after)
      (List.replicate before.length 0x0000000000000000#64 ++
        0x3FF0000000000000#64 :: List.replicate m 0x0000000000000000#64) = impulseResponse w := by
  simp only [List.forall_mem_append, List.forall_mem_cons] at hfin
  obtain ⟨hbefore, hw, hafter⟩ := hfin
  rw [dot, List.zip_append (by simp), List.foldl_append, foldl_mac_zeros _ hbefore (by decide) (by decide),
    List.zip_cons_cons, List.foldl_cons, fmul64_one hw, fadd64_zero_eq_impulseResponse hw]
  refine foldl_mac_zeros _ hafter ?_ ?_
  · unfold impulseResponse
    split_ifs
    · decide
    · exact hw
  · unfold impulseResponse
    split_ifs with hneg
    · decide
    · exact hneg

/-- The same, the weight said by its index. -/
theorem dot_impulse_getElem {ws : List Word64} {i : Nat} (hi : i < ws.length) (m : Nat)
    (hfin : ∀ v ∈ ws, isFinite v = true) :
    dot ws (List.replicate i 0x0000000000000000#64 ++
      0x3FF0000000000000#64 :: List.replicate m 0x0000000000000000#64) = impulseResponse ws[i] := by
  have hsplit : ws.take i ++ ws[i] :: ws.drop (i + 1) = ws := by
    rw [← List.drop_eq_getElem_cons, List.take_append_drop]
  have himpulse := dot_impulse (before := ws.take i) (w := ws[i]) (after := ws.drop (i + 1)) m (by rwa [hsplit])
  rwa [hsplit, List.length_take_of_le hi.le] at himpulse

theorem dot_zeros {ws : List Word64} (n : Nat) (hfin : ∀ w ∈ ws, isFinite w = true) :
    dot ws (List.replicate n 0x0000000000000000#64) = 0x0000000000000000#64 :=
  foldl_mac_zeros n hfin (by decide) (by decide)

/-- The window that ends i samples after the impulse, while the impulse is in it. -/
theorem impulse_window {c i m : Nat} (hi : i < c) (him : i ≤ m) :
    ((List.replicate c 0x0000000000000000#64 ++
        0x3FF0000000000000#64 :: List.replicate m 0x0000000000000000#64).drop (i + 1)).take c =
      List.replicate (c - 1 - i) 0x0000000000000000#64 ++
        0x3FF0000000000000#64 :: List.replicate i 0x0000000000000000#64 := by
  have hrest : c - (c - (i + 1)) = i + 1 := by omega
  rw [List.drop_append_of_le_length (by simpa using hi), List.drop_replicate, List.take_append, List.take_replicate,
    List.length_replicate, hrest, List.take_succ_cons, List.take_replicate, Nat.min_eq_left him,
    Nat.min_eq_right (by omega), Nat.sub_add_eq, Nat.sub_right_comm]

/-- Once the impulse has left it, the window holds 0.0 only. -/
theorem zeros_window {c i m : Nat} (hi : c ≤ i) (him : i ≤ m) :
    ((List.replicate c 0x0000000000000000#64 ++
        0x3FF0000000000000#64 :: List.replicate m 0x0000000000000000#64).drop (i + 1)).take c =
      List.replicate c 0x0000000000000000#64 := by
  have hhist : (List.replicate c 0x0000000000000000#64).drop (i + 1) = [] := 
    List.drop_eq_nil_of_le (List.length_replicate.trans_le (by omega))
  have hrest : i + 1 - c = (i - c) + 1 := by omega
  rw [List.drop_append, hhist, List.nil_append, List.length_replicate, hrest, List.drop_succ_cons, List.drop_replicate,
    List.take_replicate, Nat.min_eq_left (by omega)]

/-- R111 (b) for the source's filter: the impulse meets the last weight first. -/
theorem firOutputs_impulse {ws : List Word64} (k : Nat) (hpos : 0 < ws.length)
    (hfin : ∀ w ∈ ws, isFinite w = true) :
    firOutputs ws (List.replicate ws.length 0x0000000000000000#64)
        (0x3FF0000000000000#64 :: List.replicate (ws.length - 1 + k) 0x0000000000000000#64) =
      ws.reverse.map impulseResponse ++ List.replicate k 0x0000000000000000#64 := by
  refine List.ext_getElem (by simp; omega) fun i hi _ => ?_
  have hi : i ≤ ws.length - 1 + k := by simpa [Nat.lt_succ_iff] using hi
  simp only [firOutputs, List.getElem_map, List.getElem_range, List.getElem_append, List.getElem_replicate,
    List.getElem_reverse, List.length_map, List.length_reverse]
  split_ifs with hlt
  · rw [impulse_window hlt hi, dot_impulse_getElem _ _ hfin]
  · rw [zeros_window (Nat.le_of_not_lt hlt) hi, dot_zeros _ hfin]

end Sys2Proof.Machine

/-! The settled statements about the values FILTER computes. -/

namespace Sys2Proof.Machine

/-- Settles O52 (`dot_ne_negZero`). -/
theorem filterOutputIsNeverMinusZero : Obligations.FilterOutputIsNeverMinusZero := by
  intro s t h hm hexec
  cases (h.exec_filter hm).symm.trans hexec
  exact dot_ne_negZero _ _

/-- Settles O53 (`dot_of_isNaN`). -/
theorem filterNanIsCanonical : Obligations.FilterNanIsCanonical := by
  rintro s t h hm hexec ⟨wd, hmem, hnan⟩
  cases (h.exec_filter hm).symm.trans hexec
  exact dot_of_isNaN hmem hnan

/-- Settles O51: the source's filter on the impulse (`firOutputs_impulse`). -/
theorem impulseResponseIsReversedWeights : Obligations.ImpulseResponseIsReversedWeights := by
  intro s k h hm hzero hfin
  obtain ⟨hpos, -⟩ := h.cap_range (by simp [hm])
  rw [← s.weights_length] at hpos hzero ⊢
  obtain ⟨u, hfeed, -⟩ := feed_filter
    (0x3FF0000000000000#64 :: List.replicate (s.weights.length - 1 + k) 0x0000000000000000#64) h hm
  rw [hzero, firOutputs_impulse k hpos hfin] at hfeed
  exact ⟨u, hfeed⟩

end Sys2Proof.Machine

/-! SUPPORT. The code a command reports (R133, R134). -/

namespace Sys2Proof.Machine

/-- A command that completes OK says so in CODE (R131). -/
theorem Completes.code {i : Instr} {s t : State} (h : Completes i s t) : t.code = .ok := by
  cases h <;> rfl

/-- A command that answers a next state leaves in CODE what R133 and R134 name. -/
theorem exec_next_code {i : Instr} {s t : State} (h : exec i s = .next t) : t.code = expectedCode i s := by
  by_cases hc : expectedCode i s = .ok
  · exact (completes_of_exec hc h).code.trans hc.symm
  · cases (exec_of_expectedCode hc).symm.trans h
    rfl

theorem expectedCode_of_admission_none {i : Instr} {s : State} (h : admission i s.mode = none) :
    expectedCode i s = firstError (argumentErrors i s) := by
  rw [expectedCode, h]

/-- The first error of a list is OK or a code of the list. -/
theorem firstError_eq_ok_or_mem (l : List (Bool × Code)) : firstError l = .ok ∨ firstError l ∈ l.map Prod.snd := by
  induction l with
  | nil => exact .inl rfl
  | cons e rest ih =>
    rw [firstError, List.map_cons, List.mem_cons]
    split_ifs
    · exact .inr (.inl rfl)
    · exact ih.imp_right .inr

/-- No argument check fails with a mode code (R133, R134). -/
theorem modeCode_notMem_argumentErrors (i : Instr) (s : State) :
    .notConfigured ∉ (argumentErrors i s).map Prod.snd ∧ .modeError ∉ (argumentErrors i s).map Prod.snd := by
  cases i <;> simp [argumentErrors]

theorem firstError_argumentErrors_ne_modeCode (i : Instr) (s : State) :
    firstError (argumentErrors i s) ≠ .notConfigured ∧ firstError (argumentErrors i s) ≠ .modeError := by
  obtain ⟨hconf, hmode⟩ := modeCode_notMem_argumentErrors i s
  obtain hok | hmem := firstError_eq_ok_or_mem (argumentErrors i s)
  · simp [hok]
  · exact ⟨fun h => hconf (h ▸ hmem), fun h => hmode (h ▸ hmem)⟩

end Sys2Proof.Machine

/-! The settled statements about the errors a command reports, and about power-down. -/

namespace Sys2Proof.Machine

/-- Settles O23: the two ways to another code than OK, an illegal word and a command that R133 or R134 stops, write CODE
alone. -/
theorem failedCommandChangesOnlyCode : Obligations.FailedCommandChangesOnlyCode := by
  intro s t w hrun hcode
  obtain ⟨i, -, hexec⟩ | rfl := runCommand_next_cases hrun
  · obtain hc | ⟨-, rfl⟩ := exec_next_cases hexec
    · exact absurd hc.code hcode
    · rfl
  · rfl

/-- Settles O24: the commands report the code that R133 and R134 name (`exec_next_code`), and no argument check names a
mode code. -/
theorem modeAdmissionTable : Obligations.ModeAdmissionTable := by
  refine fun i s h => ⟨fun c hc => exec_of_admission hc, fun hnone => ?_⟩
  obtain ⟨t, ht⟩ := h.exec_answers i
  have hcode : t.code = firstError (argumentErrors i s) :=
    (exec_next_code ht).trans (expectedCode_of_admission_none hnone)
  exact ⟨t, ht, hcode, hcode ▸ firstError_argumentErrors_ne_modeCode i s⟩

/-- Settles O25: an illegal word runs no command, and a legal one runs the command whose code R133 and R134 name
(`exec_next_code`). -/
theorem errorPriority : Obligations.ErrorPriority := by
  refine fun w s h => ⟨fun hw => runCommand_of_illegalWord hw s, fun i hi => ?_⟩
  rw [runCommand_of_decode hi]
  obtain ⟨t, ht⟩ := h.exec_answers i
  exact ⟨t, ht, exec_next_code ht⟩

/-- Settles O18: a power-down is served to its end by `archReset` (R146). -/
theorem powerDownGivesResetState : Obligations.PowerDownGivesResetState :=
  fun _ _ hin => step_done hin rfl

end Sys2Proof.Machine

/-! SUPPORT. What `rst` does, alone and during an access (R151, R152). -/

namespace Sys2Proof.Machine

/-- Asserting `rst` takes the reset values, whatever its level was (log 11). -/
theorem step_rst_true {s : State} {rest : List Input} (hin : s.inputs = .rst true :: rest) :
    step s = .next ((s.setInputs rest).archReset.setRst true) :=
  step_done hin rfl

/-- Deasserting `rst`, when it is asserted, takes the reset values (R151). -/
theorem step_rst_false {s : State} {rest : List Input} (hin : s.inputs = .rst false :: rest) (hr : s.rst = true) :
    step s = .next ((s.setInputs rest).archReset.setRst false) := by
  have hserve : serveRst (s.setInputs rest) false = (s.setInputs rest).archReset.setRst false := by
    simp [serveRst, hr]
  exact step_done hin (congrArg Served.done hserve)

/-- An access that would reach the core and is cut there leaves the core in reset, without a response (R152, log 10). -/
theorem serveCut_of_admitAccess {s : State} {a : Access} {off : Nat} (h : admitAccess s a = .ok off) :
    serveCut s a = .done ((s.archReset.setRst true).respond .noResponse) := by
  rw [serveCut, h]

end Sys2Proof.Machine

/-! The settled statements about reset. -/

namespace Sys2Proof.Machine

/-- Settles O16: the assertion leaves `rst` high, so that the level that follows deasserts it and the reset values are
taken again. -/
theorem rstPulseGivesResetState : Obligations.RstPulseGivesResetState :=
  fun _ _ hin => ⟨_, step_rst_true hin, rfl, step_rst_false rfl rfl⟩

/-- Settles O17: the write is admitted, so that the reset cuts it in the core. -/
theorem resetAbandonsTheCommand : Obligations.ResetAbandonsTheCommand := by
  intro s w rest hin hr
  refine step_done hin ?_
  exact serveCut_of_admitAccess (admitAccess_base_add (s := s.setInputs rest) hr (by decide))

end Sys2Proof.Machine
